-- ==== Sys2Proof/Word.lean ====
section
/-! DEFINITION. The vocabulary of the FPCD's spec: texts, the tests on a bit vector, the five kinds, the two errors and the
domain of values (`spec/00_scope.md` sections 5 and 7, `spec/43_value.md` R107, `spec/60_exceptions.md` R130, R131). -/

namespace Sys2Proof

/-- A string of the spec: a finite sequence of characters, the first one leftmost (`spec/00_scope.md` section 5). -/
abbrev Text := List Char

/-- `AllOnes(v)` of `spec/00_scope.md` section 5. -/
def allOnes (v : BitVec n) : Bool := v == BitVec.allOnes n

/-- `AllZeros(v)` of `spec/00_scope.md` section 5. -/
def allZeros (v : BitVec n) : Bool := v == 0#n

/-- `Any(v)` of `spec/00_scope.md` section 5: not `AllZeros(v)`. -/
def anyOne (v : BitVec n) : Bool := !allZeros v

/-- The five kinds, in the order of the document's enumeration (R28). -/
inductive Kind where
  | zero
  | subnormal
  | normal
  | infinity
  | nan
deriving DecidableEq, Repr

/-- The two error conditions; they are identified by their names only (R130, R131, R136). -/
inductive Error where
  | formatError
  | internalError
deriving DecidableEq, Repr

/-- The value domain `V` of R107: one NaN, two infinities, two zeros, and the finite numbers `Fin(q)`. `neg = true` is the spec's
`neg = 1`. That `q` is not zero for a decoded word is a statement about the decoder, not part of the type. -/
inductive Value where
  | nan
  | inf (neg : Bool)
  | zero (neg : Bool)
  | fin (q : Rat)
deriving DecidableEq, Repr

end Sys2Proof
end

