-- ==== Sys2Proof/Config.lean ====
section
/-! DEFINITION. What is fixed when an FPCD is built: the FormatSpec (k, p, bias) with its derived widths and the six presets
(`spec/00_scope.md` R7 to R13), the separator's default (R11, D17), the host's byte order (R44, D22), and the bit patterns driven on
`sig` and `texp` while they carry no meaning (R30, R31, `spec/93_implementation_defined.md` U2). -/

namespace Sys2Proof

/-- The FormatSpec of one FPCD (R7, R8, R9). Only an admitted triple can be built: the three proof fields are the ranges
`k >= 1`, `p >= 2` and `0 <= bias <= 2^k - 1`, the range of `bias` being that of the hardware ports (R9, D4). -/
structure FormatSpec where
  k : Nat
  p : Nat
  bias : Int
  k_pos : 1 ≤ k
  p_two : 2 ≤ p
  bias_range : 0 ≤ bias ∧ bias < ((2 ^ k : Nat) : Int)
deriving DecidableEq, Repr

namespace FormatSpec

/-- The width of the word: `N = k + p` (R10). -/
abbrev N (f : FormatSpec) : Nat := f.k + f.p

/-- The width of the fraction field: `FW = p - 1` (R10). -/
abbrev FW (f : FormatSpec) : Nat := f.p - 1

/-- The width of the scale exponent's port: `XW = k + 1` (R11, D13). -/
abbrev XW (f : FormatSpec) : Nat := f.k + 1

/-- Building from any triple: an admitted one gives a FormatSpec, any other gives none (R7, R8, R9; U6, U7: refuse). -/
def build (k p : Nat) (bias : Int) : Option FormatSpec :=
  if h : 1 ≤ k ∧ 2 ≤ p ∧ 0 ≤ bias ∧ bias < ((2 ^ k : Nat) : Int) then
    some { k := k, p := p, bias := bias, k_pos := h.1, p_two := h.2.1, bias_range := h.2.2 }
  else none

/-- The six presets, table of R12. -/
def float16 : FormatSpec := ⟨5, 11, 15, by decide, by decide, by decide⟩
/-- Table of R12, row BFloat16. -/
def bfloat16 : FormatSpec := ⟨8, 8, 127, by decide, by decide, by decide⟩
/-- Table of R12, row Float32. -/
def float32 : FormatSpec := ⟨8, 24, 127, by decide, by decide, by decide⟩
/-- Table of R12, row Float64. -/
def float64 : FormatSpec := ⟨11, 53, 1023, by decide, by decide, by decide⟩
/-- Table of R12, row Float128. -/
def float128 : FormatSpec := ⟨15, 113, 16383, by decide, by decide, by decide⟩
/-- Table of R12, row Float256. -/
def float256 : FormatSpec := ⟨19, 237, 262143, by decide, by decide, by decide⟩

end FormatSpec

namespace Config

/-- `SEP`, the separator of `str_bits`: an open parameter (a field of State) whose default is the underscore (R11, R120, D17). -/
def defaultSep : Char := '_'

/-- What stands on `sig` while `sig_valid = 0`. The pattern carries no meaning (R30); U2 makes it a function from the word whose default
is constant zero, which is the pattern R94 drives. -/
def invalidSig (f : FormatSpec) (_w : BitVec f.N) : BitVec f.p := 0#f.p

/-- What stands on `texp` while `sig_valid = 0` (R31, R100; U2 as for `invalidSig`). -/
def invalidTexp (f : FormatSpec) (_w : BitVec f.N) : BitVec f.XW := 0#f.XW

/-- `HOST_BYTE_ORDER` (R44, D22): a property of the host that keeps the word in bytes; no rule of the block reads it. -/
inductive ByteOrder where
  | bigEndian
  | littleEndian
deriving DecidableEq, Repr

end Config

end Sys2Proof
end

