-- ==== Sys2Proof/Syntax.lean ====
section
/-! DEFINITION. The rows of `spec/opcode_table.json`: the five word classes (R53), which a word's bits select, and the fifteen operations
of the document's components, which apply to every word and are selected by the host's request, not by the word. -/

namespace Sys2Proof

/-- One constructor per mnemonic of the table. The table repeats the five word classes for each preset and once for any FormatSpec;
the format is not in the word (R57), so one constructor stands for a class under every FormatSpec. `S`, `E`, `F` are the word's fields
(R50), `E` and `F` as unsigned numbers. -/
inductive Instr where
  /-- A word of class zero (R83, R101). -/
  | zero (S : Bool)
  /-- A word of class infinity (R81, R102). -/
  | infinity (S : Bool)
  /-- A word of class subnormal (R82, R104). -/
  | subnormal (S : Bool) (F : Nat)
  /-- A word of class nan (R80, R103). -/
  | nan (S : Bool) (F : Nat)
  /-- A word of class normal (R84, R105). -/
  | normal (S : Bool) (E F : Nat)
  /-- `Load(s)` on any text (R70). -/
  | load (t : Text)
  /-- R74. -/
  | partition
  /-- R88. -/
  | classify
  /-- R90. -/
  | sign
  /-- R91. -/
  | exponent
  /-- R92. -/
  | fraction
  /-- R93, R94. -/
  | significand
  /-- R100. -/
  | texp
  /-- R101. -/
  | valueZero
  /-- R102. -/
  | valueInfinity
  /-- R103. -/
  | valueNan
  /-- R104. -/
  | valueSubnormal
  /-- R105. -/
  | valueNormal
  /-- R120. -/
  | strbits
  /-- R123. -/
  | summary
deriving DecidableEq, Repr

/-- The operations a host can ask for on the word that stands on the port: every operation of the table but `LOAD`, which brings a
text of its own. -/
inductive Operation where
  | partition
  | classify
  | sign
  | exponent
  | fraction
  | significand
  | texp
  | valueZero
  | valueInfinity
  | valueNan
  | valueSubnormal
  | valueNormal
  | strbits
  | summary
deriving DecidableEq, Repr

/-- The instruction a requested operation is. -/
def Operation.instr : Operation → Instr
  | .partition => .partition
  | .classify => .classify
  | .sign => .sign
  | .exponent => .exponent
  | .fraction => .fraction
  | .significand => .significand
  | .texp => .texp
  | .valueZero => .valueZero
  | .valueInfinity => .valueInfinity
  | .valueNan => .valueNan
  | .valueSubnormal => .valueSubnormal
  | .valueNormal => .valueNormal
  | .strbits => .strbits
  | .summary => .summary

/-- One input of the host's list of inputs (`spec/00_scope.md` section 8 item 8, `spec/95_test_vectors.md` section 3): a text for
`Load`, a word driven on the port (R76), or a request for one output group of the word that stands there. A driven word has exactly
the port's `N` two-state bits (R26, R45), so a wider one and a bit that is not two-state cannot be written down. -/
inductive Stimulus (f : FormatSpec) where
  | text (t : Text)
  | word (v : BitVec f.N)
  | request (op : Operation)
deriving DecidableEq, Repr

end Sys2Proof
end

