-- ==== Sys2Proof/WellFormed.lean ====
section
/-! DEFINITION. When an instruction's fields are those of a word of its class under a FormatSpec: the constraints of
`spec/opcode_table.json` and the table of R53. -/

namespace Sys2Proof

/-- The fraction field's number fits its `p - 1` bits (R50). -/
def fractionFits (f : FormatSpec) (F : Nat) : Bool := decide (F < 2 ^ f.FW)

/-- `uint(F) != 0` and `F` fits: the side condition of the rows subnormal and nan (R80, R82). -/
def fractionNonzero (f : FormatSpec) (F : Nat) : Bool := decide (F ≠ 0) && fractionFits f F

/-- `1 <= uint(E) <= 2^k - 2`: the side condition of the row normal (R84). -/
def exponentNormal (f : FormatSpec) (E : Nat) : Bool := decide (1 ≤ E) && decide (E + 2 ≤ 2 ^ f.k)

/-- The fields are those of a word of the class. An operation carries no field of the word, and `Load` takes any text (R70), so those
are always well formed. -/
def Instr.wellFormed (f : FormatSpec) : Instr → Bool
  | .zero _ => true
  | .infinity _ => true
  | .subnormal _ F => fractionNonzero f F
  | .nan _ F => fractionNonzero f F
  | .normal _ E F => exponentNormal f E && fractionFits f F
  | .load _ => true
  | .partition => true
  | .classify => true
  | .sign => true
  | .exponent => true
  | .fraction => true
  | .significand => true
  | .texp => true
  | .valueZero => true
  | .valueInfinity => true
  | .valueNan => true
  | .valueSubnormal => true
  | .valueNormal => true
  | .strbits => true
  | .summary => true

end Sys2Proof
end

