-- ==== Sys2Proof/Decode.lean ====
section
/-! DEFINITION. From bits to instructions and back: the match and mask pairs of R53 over `uint(w)`, the text form of R51 with the two
checks of R71 and R72, the bytes of a host that keeps the word in memory (R44), and the encoder. -/

namespace Sys2Proof

/-- `2^(p-1)`: the weight of the exponent field's least bit (R50). -/
def fractionUnit (f : FormatSpec) : Nat := 2 ^ f.FW

/-- `Fmask = 2^(p-1) - 1` (`spec/opcode_table.json`, generic rows). -/
def fractionMask (f : FormatSpec) : Nat := 2 ^ f.FW - 1

/-- `Emask = (2^k - 1) * 2^(p-1)` (`spec/opcode_table.json`, generic rows). -/
def exponentMask (f : FormatSpec) : Nat := (2 ^ f.k - 1) * fractionUnit f

/-- The sign bit's weight `2^(N-1)` (R50). -/
def signUnit (f : FormatSpec) : Nat := 2 ^ (f.N - 1)

/-- `S = w[N-1]` (R50), read from `uint(w)`. -/
def numberS (f : FormatSpec) (u : Nat) : Bool := u.testBit (f.N - 1)

/-- `uint(E)` with `E = w[N-2:p-1]` (R50), read from `uint(w)`. -/
def numberE (f : FormatSpec) (u : Nat) : Nat := u / fractionUnit f % 2 ^ f.k

/-- `uint(F)` with `F = w[p-2:0]` (R50), read from `uint(w)`. -/
def numberF (f : FormatSpec) (u : Nat) : Nat := u % fractionUnit f

/-- The class of a word with its fields: the match and mask pairs of R53 in their order zero, infinity, subnormal, nan, normal, the
first hit winning. Every word has one (R54). -/
def decodeWord (f : FormatSpec) (w : BitVec f.N) : Instr :=
  let u := w.toNat
  if u &&& (exponentMask f ||| fractionMask f) = 0 then .zero (numberS f u)
  else if u &&& (exponentMask f ||| fractionMask f) = exponentMask f then .infinity (numberS f u)
  else if u &&& exponentMask f = 0 then .subnormal (numberS f u) (numberF f u)
  else if u &&& exponentMask f = exponentMask f then .nan (numberS f u) (numberF f u)
  else .normal (numberS f u) (numberE f u) (numberF f u)

/-- The binary digits are exactly U+0030 and U+0031 (R72, D7). -/
def isDigit (c : Char) : Bool := c == '0' || c == '1'

/-- The bit a digit stands for (R73). -/
def digitBit (c : Char) : Nat := if c = '1' then 1 else 0

/-- The integer whose binary numeral the text is, its first digit the most significant (R43, R51). -/
def textNumber (t : Text) : Nat := t.foldl (fun acc c => 2 * acc + digitBit c) 0

/-- `Load(s)`: the length check, then the character check, then the word (R70 to R73). -/
def loadText (f : FormatSpec) (t : Text) : Except Error (BitVec f.N) :=
  if t.length ≠ f.N then .error .formatError
  else if t.any (fun c => !isDigit c) then .error .formatError
  else .ok (BitVec.ofNat f.N (textNumber t))

/-- Why a sequence of characters or bytes is no word. -/
inductive DecodeReject where
  /-- The text has another length than `N` or a character that is no binary digit (R55). -/
  | formatError
  /-- The bytes are not exactly as many as `N` bits take. -/
  | wrongByteCount
  /-- A bit above the word's `N` bits is set. -/
  | bitsAboveTheWord
deriving DecidableEq, Repr

/-- A text read as a word's class and fields, or rejected by name. -/
def decodeText (f : FormatSpec) (t : Text) : Except DecodeReject Instr :=
  match loadText f t with
  | .ok w => .ok (decodeWord f w)
  | .error _ => .error .formatError

/-- The number a host's bytes hold, first byte at the lowest address (R44). -/
def bytesNumber (order : Config.ByteOrder) (bytes : List (BitVec 8)) : Nat :=
  match order with
  | .bigEndian => bytes.foldl (fun acc b => 256 * acc + b.toNat) 0
  | .littleEndian => bytes.foldr (fun b acc => 256 * acc + b.toNat) 0

/-- A host's bytes read as a word, whole (R44, R45): total on any bytes. DESIGN CHOICE (log entry 8): as many bytes as `N` bits take,
the bits above the word zero. -/
def decodeBytes (f : FormatSpec) (order : Config.ByteOrder) (bytes : List (BitVec 8)) : Except DecodeReject Instr :=
  if bytes.length ≠ (f.N + 7) / 8 then .error .wrongByteCount
  else if 2 ^ f.N ≤ bytesNumber order bytes then .error .bitsAboveTheWord
  else .ok (decodeWord f (BitVec.ofNat f.N (bytesNumber order bytes)))

/-- `uint(w)` of the word an instruction of the five classes is, from the `encoding` column of `spec/opcode_table.json`: the sign digit,
then `k` exponent digits, then `p - 1` fraction digits. An operation is selected by no word. -/
def wordNumber (f : FormatSpec) : Instr → Option Nat
  | .zero S => some (S.toNat * signUnit f)
  | .infinity S => some (S.toNat * signUnit f + exponentMask f)
  | .subnormal S F => some (S.toNat * signUnit f + F)
  | .nan S F => some (S.toNat * signUnit f + exponentMask f + F)
  | .normal S E F => some (S.toNat * signUnit f + E * fractionUnit f + F)
  | .load _ => none
  | .partition => none
  | .classify => none
  | .sign => none
  | .exponent => none
  | .fraction => none
  | .significand => none
  | .texp => none
  | .valueZero => none
  | .valueInfinity => none
  | .valueNan => none
  | .valueSubnormal => none
  | .valueNormal => none
  | .strbits => none
  | .summary => none

/-- The word of a well-formed instruction of the five classes. -/
def encode (f : FormatSpec) (i : Instr) : Option (BitVec f.N) :=
  if i.wellFormed f then (wordNumber f i).map (BitVec.ofNat f.N) else none

/-- The preset whose words take a row of so many bits; of the two presets of 16 bits it is Float16 (the word does not say, R57). A width that is
no preset's goes to the next wider preset, one above 256 to Float256. DESIGN CHOICE (log entry 7). -/
def presetOfWidth (nbits : Nat) : FormatSpec :=
  if nbits ≤ 16 then FormatSpec.float16
  else if nbits ≤ 32 then FormatSpec.float32
  else if nbits ≤ 64 then FormatSpec.float64
  else if nbits ≤ 128 then FormatSpec.float128
  else FormatSpec.float256

/-- The instruction the decoder reads from a row's word: `uint(w)` is the number the table's `match` and `mask` are written in. A number
that no word of the preset has is no instruction; one of fewer bits is the word with zeros above it (DESIGN CHOICE, log entry 7). -/
def decodeTableWord (nbits w : Nat) : Option Instr :=
  if w < 2 ^ (presetOfWidth nbits).N then some (decodeWord (presetOfWidth nbits) (BitVec.ofNat _ w)) else none

end Sys2Proof
end

