-- ==== Sys2Proof/Machine/State.lean ====
section
/-! DEFINITION. What an observer of one FPCD can write down: its FormatSpec and separator, the input port, every output port, the
readings its caller has of them, the caller's last reply and the host's remaining inputs. The block itself stores nothing (R20 to R25);
that every output is a function of the present word alone is the invariant `Settled` of `Sys2Proof/Safety.lean`, kept by every step. -/

namespace Sys2Proof.Machine

/-- The output ports of R27 to R32, port by port. A 1-bit port is a Bool, `true` for 1. -/
structure Outputs (f : FormatSpec) where
  /-- R27. -/
  signBit : Bool
  /-- R27: `exponent[k-1:0]`. -/
  exponent : BitVec f.k
  /-- R27: `fraction[p-2:0]`. -/
  fraction : BitVec f.FW
  /-- R28: `kind[2:0]`. -/
  kind : BitVec 3
  /-- R28. -/
  isZero : Bool
  /-- R28. -/
  isSubnormal : Bool
  /-- R28. -/
  isNormal : Bool
  /-- R28. -/
  isInfinity : Bool
  /-- R28. -/
  isNan : Bool
  /-- R29. -/
  signNeg : Bool
  /-- R30: `sig[p-1:0]`. -/
  sig : BitVec f.p
  /-- R30. -/
  sigValid : Bool
  /-- R31: `texp[XW-1:0]`, two's complement. -/
  texp : BitVec f.XW
  /-- R32. -/
  valNeg : Bool
deriving DecidableEq, Repr

/-- The ten keys of the structured summary (R123). -/
inductive SummaryKey where
  | value
  | kind
  | k
  | p
  | bias
  | strBits
  | sign
  | exponent
  | fraction
  | significand
deriving DecidableEq, Repr

/-- An entry of the summary with the type R124 gives it. -/
inductive SummaryEntry where
  | value (v : Value)
  | kind (k : Kind)
  | natural (n : Nat)
  | integer (i : Int)
  | text (t : Text)
  | rational (q : Rat)
  | notApplicable
deriving DecidableEq, Repr

/-- The document's properties of the decoded word, as the caller reads them: the seven names of its public API and the structured
summary (`spec/10_state.md` section 3, R33, R123), with the true exponent of R100 as the integer R113 asks for. `none` is the sentinel
"not applicable" (R94, R100). -/
structure View where
  /-- The name of the kind (R85). -/
  kind : Kind
  /-- `+1` or `-1` (R90). -/
  sign : Int
  /-- R91. -/
  exponent : Nat
  /-- R92. -/
  fraction : Rat
  /-- R93, R94. -/
  significand : Option Rat
  /-- `E_true` of R100. -/
  trueExponent : Option Int
  /-- R101 to R105. -/
  value : Value
  /-- R120. -/
  strBits : Text
  /-- R123. -/
  summary : List (SummaryKey × SummaryEntry)
deriving DecidableEq, Repr

/-- What the caller got for its last input: results, or an error in their place (R132). -/
inductive Reply where
  | results
  | error (e : Error)
deriving DecidableEq, Repr

/-- One FPCD as its host sees it. The first two fields are configuration and never change (R13, R24); `w` is the input port (R26), `out`
the output ports, `view` and `reply` what the caller has, `inputs` the rest of the host's list of inputs. -/
structure State where
  fmt : FormatSpec
  sep : Char
  w : BitVec fmt.N
  out : Outputs fmt
  view : View
  reply : Reply
  inputs : List (Stimulus fmt)
deriving DecidableEq, Repr

/-- Why a step stops with a fault. -/
inductive Fault where
  /-- `InternalError`: raised by the Value Resolver alone (VALUE.zero to VALUE.normal), when the code on the port `kind` is 5, 6 or 7 (R106,
  R131). It is an assertion and not to be caught, so the machine stops. Safe: no word leads there. -/
  | internalError (code : BitVec 3)
deriving DecidableEq, Repr

/-- Why a term has no meaning. -/
inductive Refusal where
  /-- Raised by an arm of exec for an instruction without a meaning; no arm does now. Safe. -/
  | notModelled (mnemonic : String)
  /-- Raised by the meanings SUBNORMAL, NAN and NORMAL on fields that no word of their class has under the FormatSpec (R53, R80 to R84):
  such a term is no word and cannot stand on the port. Safe. -/
  | noWordOfItsClass
  /-- Raised when an FPCD is to be built from a triple (k, p, bias) outside the admitted ranges (R7 to R9, U6, U7). Safe. -/
  | formatSpecNotAdmitted
deriving DecidableEq, Repr

/-- The ports while all bits of `w` are zero, the positive zero word (R83, R101, R151). -/
def Outputs.ofZeroWord (f : FormatSpec) : Outputs f where
  signBit := false
  exponent := 0#f.k
  fraction := 0#f.FW
  kind := 0#3
  isZero := true
  isSubnormal := false
  isNormal := false
  isInfinity := false
  isNan := false
  signNeg := false
  sig := Config.invalidSig f 0#f.N
  sigValid := false
  texp := Config.invalidTexp f 0#f.N
  valNeg := false

/-- The digits of the positive zero word (R120). -/
def zeroWordText (f : FormatSpec) (sep : Char) : Text :=
  '0' :: sep :: (List.replicate f.k '0' ++ sep :: List.replicate f.FW '0')

/-- The caller's readings of the positive zero word (R90 to R94, R100, R101, R120, R123). -/
def View.ofZeroWord (f : FormatSpec) (sep : Char) : View where
  kind := .zero
  sign := 1
  exponent := 0
  fraction := 0
  significand := none
  trueExponent := none
  value := .zero false
  strBits := zeroWordText f sep
  summary :=
    [(.value, .value (.zero false)), (.kind, .kind .zero), (.k, .natural f.k), (.p, .natural f.p), (.bias, .integer f.bias),
      (.strBits, .text (zeroWordText f sep)), (.sign, .integer 1), (.exponent, .natural 0), (.fraction, .rational 0),
      (.significand, .notApplicable)]

/-- An FPCD just built, with all zeros on its port and no input yet: its outputs are what the rules give for the bits on the port
(R35, R151). -/
def State.built (f : FormatSpec) (sep : Char) : State where
  fmt := f
  sep := sep
  w := 0#f.N
  out := Outputs.ofZeroWord f
  view := View.ofZeroWord f sep
  reply := .results
  inputs := []

/-- There is no reset (R35, R150): the state taken for it is an FPCD just built. DESIGN CHOICE (log entry 1): for Float32, the format of
the document's scenarios, with the default separator and all zeros on the port. -/
def State.reset : State := State.built FormatSpec.float32 Config.defaultSep

end Sys2Proof.Machine
end

