-- ==== Sys2Proof/Machine/Operands.lean ====
section
/-! DEFINITION. The operands of the operations: the fields of the word (R50, R74), the numbers they stand for (R90 to R94, R100), the
digits of a text (R51, R120) and the arithmetic over the rationals (`spec/00_scope.md` section 5). -/

namespace Sys2Proof.Machine

/-- `S = w[N-1]` (R50). -/
def fieldS (f : FormatSpec) (w : BitVec f.N) : Bool := w.getLsbD (f.N - 1)

/-- `E = w[N-2:p-1]` (R50): `k` bits from bit `p - 1` up. -/
def fieldE (f : FormatSpec) (w : BitVec f.N) : BitVec f.k := w.extractLsb' f.FW f.k

/-- `F = w[p-2:0]` (R50). -/
def fieldF (f : FormatSpec) (w : BitVec f.N) : BitVec f.FW := w.extractLsb' 0 f.FW

/-- `2^e` for any integer `e`, a rational (`spec/00_scope.md` section 5). -/
def pow2 : Int → Rat
  | .ofNat n => ((2 ^ n : Nat) : Rat)
  | .negSucc n => mkRat 1 (2 ^ (n + 1))

/-- `(-1)^S * q`. -/
def signed (S : Bool) (q : Rat) : Rat := if S then -q else q

/-- `sign`: `+1` when `S = 0`, `-1` when `S = 1` (R90). -/
def signOf (S : Bool) : Int := if S then -1 else 1

/-- `fraction = uint(F) / 2^(p-1)` (R92). -/
def fractionOf (f : FormatSpec) (F : BitVec f.FW) : Rat := mkRat F.toNat (2 ^ f.FW)

/-- `{h, F}`: the hidden bit before the fraction bits, `p` bits (R93). -/
def withHiddenBit (f : FormatSpec) (h : Bool) (F : BitVec f.FW) : BitVec f.p :=
  BitVec.ofNat f.p (h.toNat * 2 ^ f.FW + F.toNat)

/-- `significand`: `fraction` for subnormal, `1 + fraction` for normal, else the sentinel (R93, R94). -/
def significandOf (f : FormatSpec) (k : Option Kind) (F : BitVec f.FW) : Option Rat :=
  match k with
  | some .subnormal => some (fractionOf f F)
  | some .normal => some (1 + fractionOf f F)
  | _ => none

/-- `E_true`: `exponent - bias` for normal, `1 - bias` for subnormal, else not applicable; over the integers (R100, R113). -/
def trueExponentOf (f : FormatSpec) (k : Option Kind) (E : BitVec f.k) : Option Int :=
  match k with
  | some .normal => some ((E.toNat : Int) - f.bias)
  | some .subnormal => some (1 - f.bias)
  | _ => none

/-- An integer on the port `texp`: `XW` bits, two's complement (R31, R100). -/
def texpBits (f : FormatSpec) (e : Int) : BitVec f.XW := BitVec.ofInt f.XW e

/-- `digit(b)` (R120). -/
def digit (b : Bool) : Char := if b then '1' else '0'

/-- The digits of a bit vector, most significant first (R120). -/
def digits (v : BitVec n) : Text := (List.range n).map fun i => digit (v.getLsbD (n - 1 - i))

/-- `StrBits(sign_bit, exponent, fraction)` with the separator `SEP` (R120). -/
def strBitsOf (f : FormatSpec) (sep : Char) (S : Bool) (E : BitVec f.k) (F : BitVec f.FW) : Text :=
  digit S :: sep :: (digits E ++ sep :: digits F)

end Sys2Proof.Machine
end

