-- ==== Sys2Proof/Machine/Flags.lean ====
section
/-! DEFINITION. The flags of the block: the five classification predicates, the kind's name and its 3-bit code (R80 to R88). They are
combinational and never sticky (R23). -/

namespace Sys2Proof.Machine

/-- R80: all exponent bits 1 and a fraction bit 1. -/
def isNan (E : BitVec m) (F : BitVec n) : Bool := allOnes E && anyOne F

/-- R81: all exponent bits 1 and all fraction bits 0. -/
def isInfinity (E : BitVec m) (F : BitVec n) : Bool := allOnes E && allZeros F

/-- R82: all exponent bits 0 and a fraction bit 1. -/
def isSubnormal (E : BitVec m) (F : BitVec n) : Bool := allZeros E && anyOne F

/-- R83: all exponent bits 0 and all fraction bits 0. -/
def isZero (E : BitVec m) (F : BitVec n) : Bool := allZeros E && allZeros F

/-- R84: exponent bits neither all 1 nor all 0. -/
def isNormal (E : BitVec m) : Bool := !allOnes E && !allZeros E

/-- The kind's name, the tests in the document's order, normal by default (R85). -/
def kindOf (E : BitVec m) (F : BitVec n) : Kind :=
  if isNan E F then .nan
  else if isInfinity E F then .infinity
  else if isSubnormal E F then .subnormal
  else if isZero E F then .zero
  else .normal

/-- `kind` as R88 drives it: 4 if `is_nan`, 3 if `is_infinity`, 1 if `is_subnormal`, 0 if `is_zero`, 2 if `is_normal`. Exactly one of the
five is 1 (R85), so the last test is not made. -/
def kindBits (isNan isInfinity isSubnormal isZero : Bool) : BitVec 3 :=
  if isNan then 4#3 else if isInfinity then 3#3 else if isSubnormal then 1#3 else if isZero then 0#3 else 2#3

/-- The code of a kind (R28). -/
def kindCode : Kind → BitVec 3
  | .zero => 0#3
  | .subnormal => 1#3
  | .normal => 2#3
  | .infinity => 3#3
  | .nan => 4#3

/-- The kind a 3-bit code names; 5, 6 and 7 name none (R28, R56, R106). -/
def kindOfCode (c : BitVec 3) : Option Kind :=
  if c = 0#3 then some .zero
  else if c = 1#3 then some .subnormal
  else if c = 2#3 then some .normal
  else if c = 3#3 then some .infinity
  else if c = 4#3 then some .nan
  else none

end Sys2Proof.Machine
end

