-- ==== Sys2Proof/Machine/Ops.lean ====
section
/-! DEFINITION. The shared operations: answering the caller, raising an error (R132) and what follows it (R134), driving a word, building an
FPCD (R152), the Value Resolver with its refusal of a sixth kind (R101 to R107), the summary (R123), and the whole decode in one piece
(`spec/43_value.md` section 5). -/

namespace Sys2Proof.Machine

/-- The answer of a meaning. -/
abbrev Answer := Host.Outcome State Fault Refusal

/-- The caller gets results; nothing else changes. -/
def State.answer (s : State) : State := { s with reply := .results }

/-- Taking an error: the operation ends, the caller gets the error in place of results, nothing is saved, nothing is driven and no control
goes anywhere inside the block (R132). -/
def State.raise (e : Error) (s : State) : State := { s with reply := .error e }

/-- What follows an error: there is no return and nothing to restore (R134). The next input replaces the reply and finds everything else
as it was before the refused one. -/
def State.afterError (s : State) : State := s.answer

/-- A word on the port with its outputs and the caller's readings of them, all of the same word (R46). -/
def State.deliver (s : State) (w : BitVec s.fmt.N) (out : Outputs s.fmt) (view : View) : State :=
  { s with w := w, out := out, view := view, reply := .results }

/-- Building an FPCD from a triple; one outside the admitted ranges is refused (R152, R7 to R9). -/
def State.build (k p : Nat) (bias : Int) (sep : Char) : Answer :=
  match FormatSpec.build k p bias with
  | some f => .next (State.built f sep)
  | none => .refused .formatSpecNotAdmitted

/-- The finite value of a subnormal word: `(-1)^S * 2^(1-bias) * uint(F) / 2^(p-1)` (R104). -/
def subnormalValue (f : FormatSpec) (S : Bool) (F : BitVec f.FW) : Value :=
  .fin (signed S (pow2 (1 - f.bias) * mkRat F.toNat (2 ^ f.FW)))

/-- The finite value of a normal word: `(-1)^S * 2^(exponent-bias) * (2^(p-1) + uint(F)) / 2^(p-1)` (R105). -/
def normalValue (f : FormatSpec) (S : Bool) (E : BitVec f.k) (F : BitVec f.FW) : Value :=
  .fin (signed S (pow2 ((E.toNat : Int) - f.bias) * mkRat (2 ^ f.FW + F.toNat : Nat) (2 ^ f.FW)))

/-- The Value Resolver's case split on the kind (R101 to R105). -/
def valueOf (f : FormatSpec) (k : Kind) (S : Bool) (E : BitVec f.k) (F : BitVec f.FW) : Value :=
  match k with
  | .zero => .zero S
  | .infinity => .inf S
  | .nan => .nan
  | .subnormal => subnormalValue f S F
  | .normal => normalValue f S E F

/-- `Val(kind, val_neg, texp, sig)`: the value the four ports denote; a code 5, 6 or 7 is an InternalError (R107, R106). -/
def denote (f : FormatSpec) (code : BitVec 3) (neg : Bool) (texp : BitVec f.XW) (sig : BitVec f.p) : Except Error Value :=
  match kindOfCode code with
  | some .zero => .ok (.zero neg)
  | some .infinity => .ok (.inf neg)
  | some .nan => .ok .nan
  | some .subnormal => .ok (.fin (signed neg (sig.toNat * pow2 (texp.toInt - ((f.p : Int) - 1)))))
  | some .normal => .ok (.fin (signed neg (sig.toNat * pow2 (texp.toInt - ((f.p : Int) - 1)))))
  | none => .error .internalError

/-- One case of the Value Resolver. The case split is keyed by the code on the port `kind` (R101 to R105, C10): the case of that kind
gives the value and drives `val_neg`, any other case has nothing to give, and a code that names no kind raises InternalError, which is not
to be caught (R106, R131). -/
def valueCase (k : Kind) (v : Value) (neg : Bool) (s : State) : Answer :=
  match kindOfCode s.out.kind with
  | none => .fault (.internalError s.out.kind)
  | some k' =>
    if k' = k then .next { s.answer with view := { s.view with value := v }, out := { s.out with valNeg := neg } }
    else .next s.answer

/-- The summary's entry for a significand: a rational, or the sentinel (R124). -/
def significandEntry : Option Rat → SummaryEntry
  | some q => .rational q
  | none => .notApplicable

/-- The ten entries in the document's order (R123, R124). -/
def View.summarise (f : FormatSpec) (v : View) : List (SummaryKey × SummaryEntry) :=
  [(.value, .value v.value), (.kind, .kind v.kind), (.k, .natural f.k), (.p, .natural f.p), (.bias, .integer f.bias),
    (.strBits, .text v.strBits), (.sign, .integer v.sign), (.exponent, .natural v.exponent), (.fraction, .rational v.fraction),
    (.significand, significandEntry v.significand)]

/-- A view with its summary made of its other readings. -/
def View.withSummary (f : FormatSpec) (v : View) : View := { v with summary := v.summarise f }

/-- DECODE in one piece: the listing of `spec/43_value.md` section 5, line by line. -/
def decodeOutputs (f : FormatSpec) (w : BitVec f.N) : Outputs f :=
  let S := fieldS f w
  let E := fieldE f w
  let F := fieldF f w
  let e1 := allOnes E
  let e0 := allZeros E
  let f0 := allZeros F
  let nan := e1 && !f0
  let infinity := e1 && f0
  let subnormal := e0 && !f0
  let zero := e0 && f0
  let normal := !e1 && !e0
  { signBit := S
    exponent := E
    fraction := F
    kind := kindBits nan infinity subnormal zero
    isZero := zero
    isSubnormal := subnormal
    isNormal := normal
    isInfinity := infinity
    isNan := nan
    signNeg := S
    sig := if normal then withHiddenBit f true F else if subnormal then withHiddenBit f false F else Config.invalidSig f w
    sigValid := subnormal || normal
    texp :=
      if normal then texpBits f ((E.toNat : Int) - f.bias) else if subnormal then texpBits f (1 - f.bias) else Config.invalidTexp f w
    valNeg := S && !nan }

/-- Everything the caller reads of a word (R33, R90 to R94, R100 to R105, R120, R123). -/
def decodeView (f : FormatSpec) (sep : Char) (w : BitVec f.N) : View :=
  let S := fieldS f w
  let E := fieldE f w
  let F := fieldF f w
  let k := kindOf E F
  View.withSummary f
    { kind := k
      sign := signOf S
      exponent := E.toNat
      fraction := fractionOf f F
      significand := significandOf f (some k) F
      trueExponent := trueExponentOf f (some k) E
      value := valueOf f k S E F
      strBits := strBitsOf f sep S E F
      summary := [] }

/-- `decodeWord` of R76: driving a word on the port; all outputs follow at once, since the block is combinational (R20, R155, R156). -/
def State.drive (s : State) (w : BitVec s.fmt.N) : State :=
  s.deliver w (decodeOutputs s.fmt w) (decodeView s.fmt s.sep w)

/-- The word that stands on the port, evaluated again: the same word, its outputs and readings. -/
def State.settle (s : State) : State := s.drive s.w

/-- Every reading and output the host could take belongs to the word on the port (R20, R34, R46). -/
abbrev State.Settled (s : State) : Prop :=
  s.out = decodeOutputs s.fmt s.w ∧ s.view = decodeView s.fmt s.sep s.w

end Sys2Proof.Machine
end

