-- ==== Sys2Proof/Machine/Classify.lean ====
section
/-! DEFINITION. CLASSIFY, the Classifier (`spec/41_classify.md`). -/

namespace Sys2Proof.Machine

/-- The ports of CLASSIFY: the five predicates of R80 to R84 and the code R88 makes of them. -/
def classified {f : FormatSpec} (out : Outputs f) : Outputs f :=
  let E := out.exponent
  let F := out.fraction
  { out with
    isNan := isNan E F
    isInfinity := isInfinity E F
    isSubnormal := isSubnormal E F
    isZero := isZero E F
    isNormal := isNormal E
    kind := kindBits (isNan E F) (isInfinity E F) (isSubnormal E F) (isZero E F) }

/-- CLASSIFY: the predicates, the code and the kind's name, from the ports `exponent` and `fraction` alone (R85 to R88). -/
def execClassify (s : State) : Answer :=
  .next { s.answer with out := classified s.out, view := { s.view with kind := kindOf s.out.exponent s.out.fraction } }

end Sys2Proof.Machine
end

