-- ==== Sys2Proof/Machine/FieldValues.lean ====
section
/-! DEFINITION. SIGN, EXPONENT, FRACTION and SIGNIFICAND, the field values (`spec/42_field_values.md`). -/

namespace Sys2Proof.Machine

/-- SIGN: `sign_neg` and `sign`, from the port `sign_bit` (R90). -/
def execSign (s : State) : Answer :=
  .next { s.answer with out := { s.out with signNeg := s.out.signBit }, view := { s.view with sign := signOf s.out.signBit } }

/-- EXPONENT: `uint(E)`, the bias not subtracted; the port is `E` itself (R91, C1). -/
def execExponent (s : State) : Answer :=
  .next { s.answer with view := { s.view with exponent := s.out.exponent.toNat } }

/-- FRACTION: `uint(F) / 2^(p-1)`; the port is `F` itself (R92). -/
def execFraction (s : State) : Answer :=
  .next { s.answer with view := { s.view with fraction := fractionOf s.fmt s.out.fraction } }

/-- `sig`'s pattern: `{0, F}` for subnormal, `{1, F}` for normal, else the pattern without a meaning (R93, R94). -/
def sigPort (f : FormatSpec) (w : BitVec f.N) (k : Option Kind) (F : BitVec f.FW) : BitVec f.p :=
  match k with
  | some .subnormal => withHiddenBit f false F
  | some .normal => withHiddenBit f true F
  | _ => Config.invalidSig f w

/-- `sig_valid`: 1 exactly when the kind is subnormal or normal (R93, R94). -/
def sigValidPort (k : Option Kind) : Bool := k == some .subnormal || k == some .normal

/-- SIGNIFICAND: `sig`, `sig_valid` and the significand or its sentinel, from the ports `kind` and `fraction` (R93, R94). -/
def execSignificand (s : State) : Answer :=
  let k := kindOfCode s.out.kind
  .next { s.answer with
    out := { s.out with sig := sigPort s.fmt s.w k s.out.fraction, sigValid := sigValidPort k }
    view := { s.view with significand := significandOf s.fmt k s.out.fraction } }

end Sys2Proof.Machine
end

