-- ==== Sys2Proof/Machine/Partition.lean ====
section
/-! DEFINITION. LOAD and PARTITION, the Bit-Field Partitioner (`spec/40_partition.md`). -/

namespace Sys2Proof.Machine

/-- LOAD: an accepted text drives its word, and the outputs follow; a refused one takes FormatError (R70 to R73, R76, R132). -/
def execLoad (t : Text) (s : State) : Answer :=
  match loadText s.fmt t with
  | .ok w => .next (s.drive w)
  | .error e => .next (s.raise e)

/-- PARTITION: the three field ports, from the word (R74). -/
def execPartition (s : State) : Answer :=
  .next { s.answer with
    out := { s.out with signBit := fieldS s.fmt s.w, exponent := fieldE s.fmt s.w, fraction := fieldF s.fmt s.w } }

end Sys2Proof.Machine
end

