-- ==== Sys2Proof/Machine/Presentation.lean ====
section
/-! DEFINITION. STRBITS and SUMMARY, the presentation views (`spec/44_presentation.md`). -/

namespace Sys2Proof.Machine

/-- STRBITS: the grouped digits of the three field ports (R120). -/
def execStrbits (s : State) : Answer :=
  .next { s.answer with view := { s.view with strBits := strBitsOf s.fmt s.sep s.out.signBit s.out.exponent s.out.fraction } }

/-- SUMMARY: the ten entries, from the caller's readings and the FormatSpec (R123, R124). -/
def execSummary (s : State) : Answer :=
  .next { s.answer with view := s.view.withSummary s.fmt }

end Sys2Proof.Machine
end

