-- ==== Sys2Proof/Machine/Resolver.lean ====
section
/-! DEFINITION. TEXP and VALUE, the bias arithmetic and the Value Resolver (`spec/43_value.md`). -/

namespace Sys2Proof.Machine

/-- `texp`'s pattern: the true exponent, or the meaningless pattern where there is none (R100, R31). -/
def texpPort (f : FormatSpec) (w : BitVec f.N) (e : Option Int) : BitVec f.XW :=
  match e with
  | some e => texpBits f e
  | none => Config.invalidTexp f w

/-- TEXP: the true exponent and its port, from the ports `kind` and `exponent` and the bias (R100). -/
def execTexp (s : State) : Answer :=
  let e := trueExponentOf s.fmt (kindOfCode s.out.kind) s.out.exponent
  .next { s.answer with out := { s.out with texp := texpPort s.fmt s.w e }, view := { s.view with trueExponent := e } }

/-- VALUE.zero: `sign * 0.0` (R101). -/
def execValueZero (s : State) : Answer := valueCase .zero (.zero s.out.signBit) s.out.signBit s

/-- VALUE.infinity: `sign * +infinity` (R102). -/
def execValueInfinity (s : State) : Answer := valueCase .infinity (.inf s.out.signBit) s.out.signBit s

/-- VALUE.nan: the one NaN, the sign not applied (R103). -/
def execValueNan (s : State) : Answer := valueCase .nan .nan false s

/-- VALUE.subnormal: `sign * 2^(-(bias-1)) * fraction` (R104). -/
def execValueSubnormal (s : State) : Answer :=
  valueCase .subnormal (subnormalValue s.fmt s.out.signBit s.out.fraction) s.out.signBit s

/-- VALUE.normal: `sign * 2^(exponent-bias) * (1+fraction)` (R105). -/
def execValueNormal (s : State) : Answer :=
  valueCase .normal (normalValue s.fmt s.out.signBit s.out.exponent s.out.fraction) s.out.signBit s

end Sys2Proof.Machine
end

