-- ==== Sys2Proof/Machine/Words.lean ====
section
/-! DEFINITION. The five word classes of `spec/opcode_table.json`: a word of each class on the port (R76), with the outputs of its row and the
value its value rule gives (R53, R80 to R84, R93, R94, R100 to R105, R108). -/

namespace Sys2Proof.Machine

/-- The word of a class instruction on the port, with the outputs and readings of its row; fields that no word of the class has are
refused. -/
def deliverClass (i : Instr) (s : State) (out : BitVec s.fmt.N → Outputs s.fmt) (view : View) : Answer :=
  match encode s.fmt i with
  | some w => .next (s.deliver w (out w) view)
  | none => .refused .noWordOfItsClass

/-- ZERO: `Zero(S)` (R83, R101). -/
def execZero (S : Bool) (s : State) : Answer :=
  deliverClass (.zero S) s
    (fun w =>
      { signBit := S, exponent := 0#_, fraction := 0#_, kind := 0#3
        isZero := true, isSubnormal := false, isNormal := false, isInfinity := false, isNan := false
        signNeg := S, sigValid := false, sig := Config.invalidSig s.fmt w, texp := Config.invalidTexp s.fmt w, valNeg := S })
    (View.withSummary s.fmt
      { kind := .zero, sign := signOf S, exponent := 0, fraction := 0, significand := none, trueExponent := none
        value := .zero S, strBits := strBitsOf s.fmt s.sep S 0#_ 0#_, summary := [] })

/-- INFINITY: `Inf(S)` (R81, R102). -/
def execInfinity (S : Bool) (s : State) : Answer :=
  deliverClass (.infinity S) s
    (fun w =>
      { signBit := S, exponent := BitVec.allOnes _, fraction := 0#_, kind := 3#3
        isZero := false, isSubnormal := false, isNormal := false, isInfinity := true, isNan := false
        signNeg := S, sigValid := false, sig := Config.invalidSig s.fmt w, texp := Config.invalidTexp s.fmt w, valNeg := S })
    (View.withSummary s.fmt
      { kind := .infinity, sign := signOf S, exponent := 2 ^ s.fmt.k - 1, fraction := 0, significand := none, trueExponent := none
        value := .inf S, strBits := strBitsOf s.fmt s.sep S (BitVec.allOnes _) 0#_, summary := [] })

/-- SUBNORMAL: `texp = 1 - bias`, `sig = {0, F}` (R82, R104). -/
def execSubnormal (S : Bool) (F : Nat) (s : State) : Answer :=
  deliverClass (.subnormal S F) s
    (fun _ =>
      { signBit := S, exponent := 0#_, fraction := BitVec.ofNat _ F, kind := 1#3
        isZero := false, isSubnormal := true, isNormal := false, isInfinity := false, isNan := false
        signNeg := S, sigValid := true, sig := withHiddenBit s.fmt false (BitVec.ofNat _ F), texp := texpBits s.fmt (1 - s.fmt.bias)
        valNeg := S })
    (View.withSummary s.fmt
      { kind := .subnormal, sign := signOf S, exponent := 0, fraction := fractionOf s.fmt (BitVec.ofNat _ F)
        significand := some (fractionOf s.fmt (BitVec.ofNat _ F)), trueExponent := some (1 - s.fmt.bias)
        value := subnormalValue s.fmt S (BitVec.ofNat _ F), strBits := strBitsOf s.fmt s.sep S 0#_ (BitVec.ofNat _ F), summary := [] })

/-- NAN: the one NaN, its sign not applied: `val_neg = 0` whatever `S` is (R80, R103). -/
def execNan (S : Bool) (F : Nat) (s : State) : Answer :=
  deliverClass (.nan S F) s
    (fun w =>
      { signBit := S, exponent := BitVec.allOnes _, fraction := BitVec.ofNat _ F, kind := 4#3
        isZero := false, isSubnormal := false, isNormal := false, isInfinity := false, isNan := true
        signNeg := S, sigValid := false, sig := Config.invalidSig s.fmt w, texp := Config.invalidTexp s.fmt w, valNeg := false })
    (View.withSummary s.fmt
      { kind := .nan, sign := signOf S, exponent := 2 ^ s.fmt.k - 1, fraction := fractionOf s.fmt (BitVec.ofNat _ F)
        significand := none, trueExponent := none
        value := .nan, strBits := strBitsOf s.fmt s.sep S (BitVec.allOnes _) (BitVec.ofNat _ F), summary := [] })

/-- NORMAL: `texp = exponent - bias`, `sig = {1, F}` (R84, R105). -/
def execNormal (S : Bool) (E F : Nat) (s : State) : Answer :=
  deliverClass (.normal S E F) s
    (fun _ =>
      { signBit := S, exponent := BitVec.ofNat _ E, fraction := BitVec.ofNat _ F, kind := 2#3
        isZero := false, isSubnormal := false, isNormal := true, isInfinity := false, isNan := false
        signNeg := S, sigValid := true, sig := withHiddenBit s.fmt true (BitVec.ofNat _ F)
        texp := texpBits s.fmt ((E : Int) - s.fmt.bias), valNeg := S })
    (View.withSummary s.fmt
      { kind := .normal, sign := signOf S, exponent := E, fraction := fractionOf s.fmt (BitVec.ofNat _ F)
        significand := some (1 + fractionOf s.fmt (BitVec.ofNat _ F)), trueExponent := some ((E : Int) - s.fmt.bias)
        value := normalValue s.fmt S (BitVec.ofNat _ E) (BitVec.ofNat _ F)
        strBits := strBitsOf s.fmt s.sep S (BitVec.ofNat _ E) (BitVec.ofNat _ F), summary := [] })

end Sys2Proof.Machine
end

