-- ==== Sys2Proof/Machine/Dispatch.lean ====
section
/-! DEFINITION. One arm per constructor of Instr, each one call of its meaning. -/

namespace Sys2Proof.Machine

def exec (i : Instr) (s : State) : Host.Outcome State Fault Refusal :=
  match i with
  -- the word classes (R53)
  | .zero S => Sys2Proof.Machine.execZero S s
  | .infinity S => Sys2Proof.Machine.execInfinity S s
  | .subnormal S F => Sys2Proof.Machine.execSubnormal S F s
  | .nan S F => Sys2Proof.Machine.execNan S F s
  | .normal S E F => Sys2Proof.Machine.execNormal S E F s
  -- 40_partition.md
  | .load t => Sys2Proof.Machine.execLoad t s
  | .partition => Sys2Proof.Machine.execPartition s
  -- 41_classify.md
  | .classify => Sys2Proof.Machine.execClassify s
  -- 42_field_values.md
  | .sign => Sys2Proof.Machine.execSign s
  | .exponent => Sys2Proof.Machine.execExponent s
  | .fraction => Sys2Proof.Machine.execFraction s
  | .significand => Sys2Proof.Machine.execSignificand s
  -- 43_value.md
  | .texp => Sys2Proof.Machine.execTexp s
  | .valueZero => Sys2Proof.Machine.execValueZero s
  | .valueInfinity => Sys2Proof.Machine.execValueInfinity s
  | .valueNan => Sys2Proof.Machine.execValueNan s
  | .valueSubnormal => Sys2Proof.Machine.execValueSubnormal s
  | .valueNormal => Sys2Proof.Machine.execValueNormal s
  -- 44_presentation.md
  | .strbits => Sys2Proof.Machine.execStrbits s
  | .summary => Sys2Proof.Machine.execSummary s

end Sys2Proof.Machine
end

