-- ==== Sys2Proof/Machine/Fetch.lean ====
section
/-! DEFINITION. Where the next instruction comes from: the host's list of inputs, and, when that is at its end, the word that stands on the
port (`spec/00_scope.md` section 8, R26, R76, R151). -/

namespace Sys2Proof.Machine

/-- The next instruction and the state it runs in: the first input of the list is taken off it. A text goes to `Load`; a word is
decoded into its class; a request is the operation itself; with no input left the block goes on evaluating the word on its port, since it
has no valid or enable input (R26, R151). -/
def State.fetch (s : State) : Instr × State :=
  match s.inputs with
  | [] => (decodeWord s.fmt s.w, s)
  | .text t :: rest => (.load t, { s with inputs := rest })
  | .word v :: rest => (decodeWord s.fmt v, { s with inputs := rest })
  | .request op :: rest => (op.instr, { s with inputs := rest })

/-- A word put at the front of the host's inputs. -/
def State.present (s : State) (v : BitVec s.fmt.N) : State := { s with inputs := .word v :: s.inputs }

/-- The word of a table row as the next input, on an FPCD of the row's width: the same one where its FormatSpec is the one `presetOfWidth`
names, else one just built (an FPCD serves one format, R13). DESIGN CHOICE (log entry 7): a number of fewer bits than the preset's word is
extended with zeros, and of one that is wider the low `N` bits are taken; this is how a row's number is written as a word of the host's, and no
input of the block is padded or truncated (R45). -/
def State.presentTableWord (s : State) (nbits w : Nat) : State :=
  if s.fmt = presetOfWidth nbits then s.present (BitVec.ofNat _ w)
  else (State.built (presetOfWidth nbits) s.sep).present (BitVec.ofNat _ w)

end Sys2Proof.Machine
end

