-- ==== Sys2Proof/Machine/Step.lean ====
section
/-! DEFINITION. One step: one input of the host, evaluated whole and at once (R20, R46, R155). -/

namespace Sys2Proof.Machine

/-- One input, presented and answered. -/
def step (s : State) : Host.Outcome State Fault Refusal := exec s.fetch.1 s.fetch.2

/-- The state whose next step runs the instruction of a table row's word. Log entry 7 says how a program, which here is a list of inputs,
comes to run. -/
def State.withFetchWord (s : State) (nbits w : Nat) : State := s.presentTableWord nbits w

end Sys2Proof.Machine
end

