-- ==== Sys2Proof/Machine/Caller.lean ====
section
/-! DEFINITION. What stands on the caller's side of the block: cleanup (R58), the two entry points (R76, R132), widening (R41), reading
`str_bits` back (R121), equality and order of values (R109, R111), the operations one after another (R22, R156), and several blocks side
by side (R140). -/

namespace Sys2Proof.Machine

/-- `Clean(s)`: every space and every underscore deleted, nothing else (R58, D8). -/
def clean (t : Text) : Text := t.filter fun c => !(c == ' ' || c == '_')

/-- `decodeString`: `Load`, then the word's outputs, or the error in their place (R76, R132). -/
def decodeString (f : FormatSpec) (t : Text) : Except Error (Outputs f) :=
  match loadText f t with
  | .ok w => .ok (decodeOutputs f w)
  | .error e => .error e

/-- The caller's readings of a text it presents, or the error and no reading (R125, R132). -/
def readString (f : FormatSpec) (sep : Char) (t : Text) : Except Error View :=
  match loadText f t with
  | .ok w => .ok (decodeView f sep w)
  | .error e => .error e

/-- `sext_N` of `texp` for a consumer that needs it wider (R41). -/
def widenTexp {f : FormatSpec} (n : Nat) (t : BitVec f.XW) : BitVec n := t.signExtend n

/-- `zext_N` of `exponent`, `fraction` or `sig` for a consumer that needs it wider (R41). -/
def widenUnsigned (n : Nat) (v : BitVec m) : BitVec n := v.zeroExtend n

/-- `str_bits` with the characters at positions `1` and `k + 2` removed (R121). -/
def removeSeparators (f : FormatSpec) (t : Text) : Text := (t.eraseIdx (f.k + 2)).eraseIdx 1

/-- `FEq(a, b)`, the ordinary equality of values (R109, D16). -/
def feq : Value → Value → Bool
  | .nan, _ => false
  | _, .nan => false
  | .zero _, .zero _ => true
  | .inf m, .inf n => m == n
  | .fin q, .fin r => q == r
  | .zero _, .inf _ => false
  | .zero _, .fin _ => false
  | .inf _, .zero _ => false
  | .inf _, .fin _ => false
  | .fin _, .zero _ => false
  | .fin _, .inf _ => false

/-- The order R111 takes on the values of positive words: `+0` below every positive number, every number below `+infinity`. -/
def below : Value → Value → Prop
  | .zero false, .fin q => 0 < q
  | .zero false, .inf false => True
  | .fin q, .fin r => q < r
  | .fin _, .inf false => True
  | _, _ => False

/-- The operations in the document's dependency order: partition, classification, field values, value, presentation (R22). -/
def evaluationOrder : List Operation :=
  [.partition, .classify, .sign, .exponent, .fraction, .significand, .texp, .valueZero, .valueInfinity, .valueNan,
    .valueSubnormal, .valueNormal, .strbits, .summary]

/-- Operations one after another on the word that stands on the port. -/
def runOperations : List Operation → State → Answer
  | [], s => .next s
  | op :: rest, s =>
    match exec op.instr s with
    | .next t => runOperations rest t
    | .fault r => .fault r
    | .refused r => .refused r

/-- Several blocks side by side: each its own state, nothing shared (R140). -/
abbrev System := List State

/-- One step of the block at a place; every other block keeps its state. A place with no block answers nothing. -/
def System.stepAt (i : Nat) (sys : System) : Host.Outcome System Fault Refusal :=
  match sys[i]? with
  | none => .next sys
  | some s =>
    match step s with
    | .next t => .next (sys.set i t)
    | .fault r => .fault r
    | .refused r => .refused r

end Sys2Proof.Machine
end

