-- ==== Sys2Proof/Safety.lean ====
section
/-! DEFINITION. The terms the claims use: an accepted text, a safe run, the block's configuration, what CLASSIFY leaves, the kind of a class
instruction. -/

namespace Sys2Proof

open Machine

/-- A text that is a word of the format: `N` characters, each `'0'` or `'1'` (R55, R71, R72). -/
def Accepted (f : FormatSpec) (t : Text) : Prop := t.length = f.N ∧ ∀ c ∈ t, c = '0' ∨ c = '1'

/-- A run of `n` steps on which every step answers and every state on the way is settled (R46, R131). -/
def SafeRun : Nat → State → Prop
  | 0, s => s.Settled
  | n + 1, s => s.Settled ∧ ∃ t, step s = .next t ∧ SafeRun n t

/-- The configuration of an FPCD: its FormatSpec and separator, which nothing changes (R13, R24). -/
def SameBlock (s t : State) : Prop := t.fmt = s.fmt ∧ t.sep = s.sep

/-- The state with the kind's predicate, code and name in place, and nothing else changed (R28, R80 to R84, R88). -/
def classifiedAs (k : Kind) (s : State) : State :=
  { s with
    out := { s.out with
      isZero := decide (k = .zero), isSubnormal := decide (k = .subnormal), isNormal := decide (k = .normal)
      isInfinity := decide (k = .infinity), isNan := decide (k = .nan), kind := kindCode k }
    view := { s.view with kind := k }
    reply := .results }

/-- The kind of the words of a class; an operation is no word class (R53). -/
def classKind : Instr → Option Kind
  | .zero _ => some .zero
  | .infinity _ => some .infinity
  | .subnormal _ _ => some .subnormal
  | .nan _ _ => some .nan
  | .normal _ _ _ => some .normal
  | .load _ => none
  | .partition => none
  | .classify => none
  | .sign => none
  | .exponent => none
  | .fraction => none
  | .significand => none
  | .texp => none
  | .valueZero => none
  | .valueInfinity => none
  | .valueNan => none
  | .valueSubnormal => none
  | .valueNormal => none
  | .strbits => none
  | .summary => none

/-- The kind of a word: the Classifier on its fields. -/
def kindOfWord (f : FormatSpec) (w : BitVec f.N) : Kind := kindOf (fieldE f w) (fieldF f w)

/-- The value of a word, as the caller reads it. -/
def valueOfWord (f : FormatSpec) (w : BitVec f.N) : Value := (decodeView f Config.defaultSep w).value

/-- How many of a format's words are of a kind. -/
def kindCount (f : FormatSpec) (k : Kind) : Nat :=
  (List.range (2 ^ f.N)).countP fun u => kindOfWord f (BitVec.ofNat f.N u) == k

end Sys2Proof
end

