-- ==== Sys2Proof/Certificates/Slice0/Obligations.lean ====
section
/-! DEFINITION. The statements for the provers. Each docstring names the rules of `spec/` it formalises; where a clause is the model's own
choice, it names the log entry. -/

open Sys2Proof Sys2Proof.Machine

/-! ## From bits to instructions -/

/-- A step runs the instruction its input stands for: the class of a driven word, `Load` on a text, the requested operation, and with no
input left the class of the word on the port (R26, R76, R151; the list of inputs is log entry 3). -/
def Obligations.StepRunsTheDecodedInstruction : Prop :=
  ∀ s : State,
    (s.inputs = [] → step s = exec (decodeWord s.fmt s.w) s) ∧
    (∀ t rest, s.inputs = .text t :: rest → step s = exec (.load t) { s with inputs := rest }) ∧
    (∀ v rest, s.inputs = .word v :: rest → step s = exec (decodeWord s.fmt v) { s with inputs := rest }) ∧
    (∀ op rest, s.inputs = .request op :: rest → step s = exec op.instr { s with inputs := rest })

/-- Words of `spec/95_test_vectors.md` and of the rules' examples decode to their class and fields, and the same 16 bits are in different classes of
different formats (R57, program PR3). -/
def Obligations.VectorWordsDecode : Prop :=
  decodeWord .float32 0x80000000#32 = .zero true ∧
  decodeWord .float32 0x7F800000#32 = .infinity false ∧
  decodeWord .float32 0x00000001#32 = .subnormal false 1 ∧
  decodeWord .float32 0xFFC00000#32 = .nan true 0x400000 ∧
  decodeWord .float32 0x449A4E9D#32 = .normal false 137 0x1A4E9D ∧
  decodeWord .float16 0x7F80#16 = .nan false 0x380 ∧
  decodeWord .bfloat16 0x7F80#16 = .infinity false ∧
  decodeWord .float16 0x7C00#16 = .infinity false ∧
  decodeWord .bfloat16 0x7C00#16 = .normal false 248 0 ∧
  decodeTableWord 64 0x7FEFFFFFFFFFFFFF = some (.normal false 2046 0xFFFFFFFFFFFFF)

/-- Encoding and then decoding gives every well-formed class instruction back, with every field (R50, R53, the generic rows of the
table). -/
def Obligations.DecodeOfEncodeIsTheInstruction : Prop :=
  ∀ (f : FormatSpec) (i : Instr) (n : Nat), i.wellFormed f = true → wordNumber f i = some n →
    ∃ w : BitVec f.N, encode f i = some w ∧ w.toNat = n ∧ decodeWord f w = i

/-- Every one of the `2^N` words is a word of one class: it decodes to a well-formed class instruction, whose encoding is the word (R54). -/
def Obligations.EveryWordIsTheEncodingOfItsClass : Prop :=
  ∀ (f : FormatSpec) (w : BitVec f.N),
    (decodeWord f w).wellFormed f = true ∧ classKind (decodeWord f w) ≠ none ∧ encode f (decodeWord f w) = some w

/-- The match and mask pairs select the kind the Classifier gives, and with `k = 1` the class normal is empty (R53). -/
def Obligations.MaskedPatternsSelectTheClassifiersKind : Prop :=
  ∀ (f : FormatSpec) (w : BitVec f.N),
    classKind (decodeWord f w) = some (kindOfWord f w) ∧ (f.k = 1 → kindOfWord f w ≠ .normal)

/-- `w = {S, E, F}` with no gap and no overlap, and the document's two numberings of the field bits (R50). -/
def Obligations.FieldsTileTheWord : Prop :=
  ∀ (f : FormatSpec) (w : BitVec f.N),
    w.toNat = (fieldS f w).toNat * 2 ^ (f.N - 1) + (fieldE f w).toNat * 2 ^ (f.p - 1) + (fieldF f w).toNat ∧
    fieldS f w = w.getLsbD (f.N - 1) ∧
    (∀ i, i < f.k → (fieldE f w).getLsbD (f.k - 1 - i) = w.getLsbD (f.N - 2 - i)) ∧
    (∀ j, 1 ≤ j → j ≤ f.p - 1 → (fieldF f w).getLsbD (f.p - 1 - j) = w.getLsbD (f.p - 1 - j))

/-! ## LOAD and PARTITION -/

/-- An accepted text is the word bit for bit, `w[N-1-i] = 1` exactly when `s[i] = '1'`, and it is delivered with the outputs and readings
of that word; the configuration and the other inputs stay (R51, R70). -/
def Obligations.LoadDeliversTheWordOfAnAcceptedText : Prop :=
  ∀ (s : State) (t : Text), Accepted s.fmt t →
    ∃ w : BitVec s.fmt.N,
      (∀ i, i < s.fmt.N → w.getLsbD (s.fmt.N - 1 - i) = decide (t[i]? = some '1')) ∧
      exec (.load t) s =
        .next { s with w := w, out := decodeOutputs s.fmt w, view := decodeView s.fmt s.sep w, reply := .results }

/-- Every word is `Load` of exactly one text (R73). -/
def Obligations.EveryWordIsLoadOfExactlyOneText : Prop :=
  ∀ (f : FormatSpec) (w : BitVec f.N), ∃! t : Text, loadText f t = .ok w

/-- A text of another length than `N`, or with a character that is neither `'0'` nor `'1'`, takes FormatError: nothing is produced, and
nothing but the caller's reply changes (R71, R72, R130, R132; the reply as a next state is log entry 4). -/
def Obligations.BadTextTakesFormatError : Prop :=
  ∀ (s : State) (t : Text),
    (t.length ≠ s.fmt.N ∨ ∃ c ∈ t, c ≠ '0' ∧ c ≠ '1') →
      loadText s.fmt t = .error .formatError ∧ exec (.load t) s = .next { s with reply := .error .formatError }

/-- The next input after a refused text, good or bad, is handled exactly as if the refused one had never been presented (R134). -/
def Obligations.RefusedTextLeavesNoTrace : Prop :=
  ∀ (s : State) (t : Text) (x : Stimulus s.fmt) (rest : List (Stimulus s.fmt)),
    ¬ Accepted s.fmt t → s.inputs = .text t :: x :: rest →
      ∃ s1, step s = .next s1 ∧ s1 = { s with inputs := x :: rest, reply := .error .formatError } ∧
        step s1 = step { s with inputs := x :: rest }

/-- A text is refused on every FPCD of the same `k` and `p` or on none, and accepted texts are never refused (R133). -/
def Obligations.RefusalFailsIdenticallyOnEveryRetry : Prop :=
  (∀ (f g : FormatSpec) (t : Text), f.k = g.k → f.p = g.p →
    (loadText f t = .error .formatError ↔ loadText g t = .error .formatError)) ∧
  (∀ (f : FormatSpec) (t : Text), Accepted f t → ∀ e, loadText f t ≠ .error e)

/-- The two entry points agree: presenting an accepted text and driving its word lead to the same state (R76). -/
def Obligations.TextAndWordEntryPointsAgree : Prop :=
  ∀ (s : State) (t : Text) (w : BitVec s.fmt.N) (rest : List (Stimulus s.fmt)), loadText s.fmt t = .ok w →
    step { s with inputs := .text t :: rest } = step { s with inputs := .word w :: rest } ∧
    decodeString s.fmt t = .ok (decodeOutputs s.fmt w) ∧ readString s.fmt s.sep t = .ok (decodeView s.fmt s.sep w)

/-- PARTITION drives the three field ports bit by bit from the word, and nothing else changes (R74). -/
def Obligations.PartitionDrivesTheFieldPorts : Prop :=
  ∀ s : State, ∃ (S : Bool) (E : BitVec s.fmt.k) (F : BitVec s.fmt.FW),
    exec .partition s =
      .next { s with out := { s.out with signBit := S, exponent := E, fraction := F }, reply := .results } ∧
    S = s.w.getLsbD (s.fmt.N - 1) ∧
    (∀ i, i < s.fmt.k → E.getLsbD i = s.w.getLsbD (s.fmt.p - 1 + i)) ∧
    (∀ j, j < s.fmt.p - 1 → F.getLsbD j = s.w.getLsbD j) ∧
    s.w.toNat = S.toNat * 2 ^ (s.fmt.N - 1) + E.toNat * 2 ^ (s.fmt.p - 1) + F.toNat

/-! ## CLASSIFY -/

/-- CLASSIFY on the ports `exponent` and `fraction`: the five conditions as numbers, each with its predicate, code and name; nothing else
changes (R80 to R84, R88). -/
def Obligations.ClassifyFollowsTheFiveConditions : Prop :=
  ∀ s : State,
    let e := s.out.exponent.toNat
    let F := s.out.fraction.toNat
    (e = 2 ^ s.fmt.k - 1 → F ≠ 0 → exec .classify s = .next (classifiedAs .nan s)) ∧
    (e = 2 ^ s.fmt.k - 1 → F = 0 → exec .classify s = .next (classifiedAs .infinity s)) ∧
    (e = 0 → F ≠ 0 → exec .classify s = .next (classifiedAs .subnormal s)) ∧
    (e = 0 → F = 0 → exec .classify s = .next (classifiedAs .zero s)) ∧
    (1 ≤ e → e ≤ 2 ^ s.fmt.k - 2 → exec .classify s = .next (classifiedAs .normal s))

/-- The five predicates are pairwise mutually exclusive and jointly exhaustive, and the code is the one of the predicate that holds: it is
never 5, 6 or 7 (R28, R85). -/
def Obligations.ExactlyOnePredicateHoldsForEveryWord : Prop :=
  ∀ (f : FormatSpec) (w : BitVec f.N),
    let o := decodeOutputs f w
    o.isZero.toNat + o.isSubnormal.toNat + o.isNormal.toNat + o.isInfinity.toNat + o.isNan.toNat = 1 ∧
    o.kind.toNat ≤ 4 ∧
    (o.isZero = true ↔ o.kind = 0#3) ∧ (o.isSubnormal = true ↔ o.kind = 1#3) ∧ (o.isNormal = true ↔ o.kind = 2#3) ∧
    (o.isInfinity = true ↔ o.kind = 3#3) ∧ (o.isNan = true ↔ o.kind = 4#3)

/-- Neither the sign bit nor the bias takes part in the kind: words that differ in the sign bit alone have one kind, and a word has the same
kind under every bias (R87). -/
def Obligations.SignAndBiasTakeNoPartInTheKind : Prop :=
  (∀ (f : FormatSpec) (w w' : BitVec f.N), (∀ i, i < f.N - 1 → w.getLsbD i = w'.getLsbD i) →
    (decodeOutputs f w).kind = (decodeOutputs f w').kind ∧ kindOfWord f w = kindOfWord f w') ∧
  (∀ (f : FormatSpec) (b : Int) (h : 0 ≤ b ∧ b < ((2 ^ f.k : Nat) : Int)) (w : BitVec f.N),
    (decodeOutputs { f with bias := b, bias_range := h } w).kind = (decodeOutputs f w).kind)

/-- How many words of each kind a format has (R80 to R84, R86). -/
def Obligations.WordsOfEachKindAreCounted : Prop :=
  ∀ f : FormatSpec,
    kindCount f .nan = 2 * (2 ^ (f.p - 1) - 1) ∧ kindCount f .infinity = 2 ∧
    kindCount f .subnormal = 2 * (2 ^ (f.p - 1) - 1) ∧ kindCount f .zero = 2 ∧
    kindCount f .normal = 2 * (2 ^ f.k - 2) * 2 ^ (f.p - 1)

/-! ## The word classes -/

/-- ZERO: the two zero words are `0` and `2^(N-1)`; their value is the signed zero, `val_neg = S`, `sig_valid = 0` (R101). -/
def Obligations.ZeroWordHasTheSignedZero : Prop :=
  ∀ (S : Bool) (s : State), ∃ (w : BitVec s.fmt.N) (out : Outputs s.fmt) (view : View),
    exec (.zero S) s = .next { s with w := w, out := out, view := view, reply := .results } ∧
    w.toNat = S.toNat * 2 ^ (s.fmt.N - 1) ∧
    out.signBit = S ∧ out.exponent.toNat = 0 ∧ out.fraction.toNat = 0 ∧ out.kind = 0#3 ∧
    out.isZero = true ∧ out.isSubnormal = false ∧ out.isNormal = false ∧ out.isInfinity = false ∧ out.isNan = false ∧
    out.signNeg = S ∧ out.valNeg = S ∧ out.sigValid = false ∧
    view.kind = .zero ∧ view.value = .zero S ∧ view.significand = none ∧ view.trueExponent = none

/-- INFINITY: the two infinite words, exponent field all ones and fraction zero, respect the sign (R81, R102). -/
def Obligations.InfinityWordRespectsTheSign : Prop :=
  ∀ (S : Bool) (s : State), ∃ (w : BitVec s.fmt.N) (out : Outputs s.fmt) (view : View),
    exec (.infinity S) s = .next { s with w := w, out := out, view := view, reply := .results } ∧
    w.toNat = S.toNat * 2 ^ (s.fmt.N - 1) + (2 ^ s.fmt.k - 1) * 2 ^ (s.fmt.p - 1) ∧
    out.signBit = S ∧ out.exponent.toNat = 2 ^ s.fmt.k - 1 ∧ out.fraction.toNat = 0 ∧ out.kind = 3#3 ∧
    out.isZero = false ∧ out.isSubnormal = false ∧ out.isNormal = false ∧ out.isInfinity = true ∧ out.isNan = false ∧
    out.signNeg = S ∧ out.valNeg = S ∧ out.sigValid = false ∧
    view.kind = .infinity ∧ view.value = .inf S ∧ view.significand = none ∧ view.trueExponent = none

/-- SUBNORMAL: exponent field zero, no hidden bit, the scale `1 - bias` whatever the word, the value `(-1)^S * 2^(1-bias) * F / 2^(p-1)`
(R82, R104). -/
def Obligations.SubnormalWordHasNoHiddenBit : Prop :=
  ∀ (S : Bool) (F : Nat) (s : State),
    F ≠ 0 → F < 2 ^ (s.fmt.p - 1) → ∃ (w : BitVec s.fmt.N) (out : Outputs s.fmt) (view : View),
      exec (.subnormal S F) s = .next { s with w := w, out := out, view := view, reply := .results } ∧
      w.toNat = S.toNat * 2 ^ (s.fmt.N - 1) + F ∧
      out.signBit = S ∧ out.exponent.toNat = 0 ∧ out.fraction.toNat = F ∧ out.kind = 1#3 ∧
      out.isZero = false ∧ out.isSubnormal = true ∧ out.isNormal = false ∧ out.isInfinity = false ∧ out.isNan = false ∧
      out.signNeg = S ∧ out.valNeg = S ∧ out.sigValid = true ∧ out.sig.toNat = F ∧ out.texp.toInt = 1 - s.fmt.bias ∧
      view.kind = .subnormal ∧
      view.value = .fin ((-1 : Rat) ^ S.toNat * (2 : Rat) ^ (1 - s.fmt.bias) * ((F : Rat) / 2 ^ (s.fmt.p - 1)))

/-- NAN: exponent field all ones, fraction not zero; all such words have the one NaN, `val_neg = 0` whatever `S` is, while `sign_bit`,
`sign_neg` and the fraction stay visible (R80, R103). -/
def Obligations.NanWordCollapsesToTheUnsignedNan : Prop :=
  ∀ (S : Bool) (F : Nat) (s : State),
    F ≠ 0 → F < 2 ^ (s.fmt.p - 1) → ∃ (w : BitVec s.fmt.N) (out : Outputs s.fmt) (view : View),
      exec (.nan S F) s = .next { s with w := w, out := out, view := view, reply := .results } ∧
      w.toNat = S.toNat * 2 ^ (s.fmt.N - 1) + (2 ^ s.fmt.k - 1) * 2 ^ (s.fmt.p - 1) + F ∧
      out.signBit = S ∧ out.exponent.toNat = 2 ^ s.fmt.k - 1 ∧ out.fraction.toNat = F ∧ out.kind = 4#3 ∧
      out.isZero = false ∧ out.isSubnormal = false ∧ out.isNormal = false ∧ out.isInfinity = false ∧ out.isNan = true ∧
      out.signNeg = S ∧ out.valNeg = false ∧ out.sigValid = false ∧
      view.kind = .nan ∧ view.value = .nan ∧ view.significand = none ∧ view.trueExponent = none

/-- NORMAL: exponent field neither zero nor all ones, the hidden bit one, the scale `E - bias`, the value
`(-1)^S * 2^(E-bias) * (1 + F / 2^(p-1))` (R84, R105). -/
def Obligations.NormalWordHasTheHiddenBit : Prop :=
  ∀ (S : Bool) (E F : Nat) (s : State),
    1 ≤ E → E + 2 ≤ 2 ^ s.fmt.k → F < 2 ^ (s.fmt.p - 1) →
      ∃ (w : BitVec s.fmt.N) (out : Outputs s.fmt) (view : View),
      exec (.normal S E F) s = .next { s with w := w, out := out, view := view, reply := .results } ∧
      w.toNat = S.toNat * 2 ^ (s.fmt.N - 1) + E * 2 ^ (s.fmt.p - 1) + F ∧
      out.signBit = S ∧ out.exponent.toNat = E ∧ out.fraction.toNat = F ∧ out.kind = 2#3 ∧
      out.isZero = false ∧ out.isSubnormal = false ∧ out.isNormal = true ∧ out.isInfinity = false ∧ out.isNan = false ∧
      out.signNeg = S ∧ out.valNeg = S ∧ out.sigValid = true ∧ out.sig.toNat = 2 ^ (s.fmt.p - 1) + F ∧
      out.texp.toInt = E - s.fmt.bias ∧ view.kind = .normal ∧
      view.value = .fin ((-1 : Rat) ^ S.toNat * (2 : Rat) ^ ((E : Int) - s.fmt.bias) * (1 + (F : Rat) / 2 ^ (s.fmt.p - 1)))

/-- Fields that no word of the class has are refused by name: a term of the classes subnormal, nan or normal whose fields fall outside the
side conditions of R80 to R84 or the field widths of R50 is no word. The refusal is the model's choice (log entry 6). -/
def Obligations.FieldsOfNoWordAreRefused : Prop :=
  ∀ (S : Bool) (E F : Nat) (s : State),
    (F = 0 ∨ 2 ^ (s.fmt.p - 1) ≤ F → exec (.subnormal S F) s = .refused .noWordOfItsClass ∧
      exec (.nan S F) s = .refused .noWordOfItsClass) ∧
    (E = 0 ∨ 2 ^ s.fmt.k ≤ E + 1 ∨ 2 ^ (s.fmt.p - 1) ≤ F → exec (.normal S E F) s = .refused .noWordOfItsClass)

/-- The rows of the opcode table agree with DECODE in one piece: a class instruction whose encoding is `w` leaves exactly what driving `w`
leaves (`spec/43_value.md` section 5, R76). -/
def Obligations.TableRowsAgreeWithTheDecodeListing : Prop :=
  ∀ (s : State) (i : Instr) (w : BitVec s.fmt.N), encode s.fmt i = some w →
    exec i s =
      .next { s with w := w, out := decodeOutputs s.fmt w, view := decodeView s.fmt s.sep w, reply := .results }

/-! ## The field values -/

/-- SIGN: `sign = +1` and `sign_neg = 0` when `sign_bit = 0`, `sign = -1` and `sign_neg = 1` when it is 1, whatever the kind; nothing else
changes (R90). -/
def Obligations.SignFollowsTheSignBit : Prop :=
  ∀ s : State,
    exec .sign s =
      .next { s with
        out := { s.out with signNeg := s.out.signBit }
        view := { s.view with sign := (-1 : Int) ^ s.out.signBit.toNat }
        reply := .results }

/-- EXPONENT: the big-endian binary value of the exponent bits, the bit at position `i` from the most significant end weighing
`2^(k-1-i)`, in `0 .. 2^k - 1`; nothing else changes (R91). -/
def Obligations.ExponentIsTheBigEndianValueOfItsBits : Prop :=
  ∀ s : State, ∃ n : Nat,
    exec .exponent s = .next { s with view := { s.view with exponent := n }, reply := .results } ∧
    n = ∑ i ∈ Finset.range s.fmt.k, (s.out.exponent.getLsbD (s.fmt.k - 1 - i)).toNat * 2 ^ (s.fmt.k - 1 - i) ∧
    n ≤ 2 ^ s.fmt.k - 1

/-- FRACTION: the fraction bits with the weights `2^-1, 2^-2, ..., 2^-(p-1)`, an exact rational in `[0, 1)`, at most `1 - 2^-(p-1)`; nothing
else changes (R92). -/
def Obligations.FractionIsTheWeightedSumOfItsBits : Prop :=
  ∀ s : State, ∃ q : Rat,
    exec .fraction s = .next { s with view := { s.view with fraction := q }, reply := .results } ∧
    q = ∑ j ∈ Finset.range (s.fmt.p - 1),
      ((s.out.fraction.getLsbD (s.fmt.p - 1 - (j + 1))).toNat : Rat) * (2 : Rat) ^ (-((j : Int) + 1)) ∧
    q = (s.out.fraction.toNat : Rat) / 2 ^ (s.fmt.p - 1) ∧
    0 ≤ q ∧ q ≤ 1 - (2 : Rat) ^ (-((s.fmt.p : Int) - 1)) ∧ q < 1

/-- SIGNIFICAND with the code of subnormal or normal on the port `kind`: `fraction` or `1 + fraction`, `sig` the fraction bits behind the
hidden bit 0 or 1, `sig_valid = 1`, and `significand = uint(sig) / 2^(p-1)`; nothing else changes (R93). -/
def Obligations.SignificandPrependsTheHiddenBit : Prop :=
  ∀ (s : State) (h : Bool), s.out.kind = (if h then 2#3 else 1#3) → ∃ (sig : BitVec s.fmt.p) (q : Rat),
    exec .significand s =
      .next { s with
        out := { s.out with sig := sig, sigValid := true }
        view := { s.view with significand := some q }
        reply := .results } ∧
    sig.getLsbD (s.fmt.p - 1) = h ∧ (∀ j, j < s.fmt.p - 1 → sig.getLsbD j = s.out.fraction.getLsbD j) ∧
    q = (h.toNat : Rat) + (s.out.fraction.toNat : Rat) / 2 ^ (s.fmt.p - 1) ∧
    q = (sig.toNat : Rat) / 2 ^ (s.fmt.p - 1) ∧
    (h = true → 1 ≤ q ∧ q < 2 ∧ (q = 1 ↔ s.out.fraction.toNat = 0)) ∧
    (h = false → s.out.fraction.toNat ≠ 0 → 0 < q ∧ q < 1)

/-- SIGNIFICAND with any code but those of subnormal and normal on the port `kind`: the sentinel "not applicable", `sig_valid = 0`; nothing
else changes but the pattern on `sig`, which is all zeros and carries no meaning (R93, R94, D12; that a code that names no kind falls under
R93's "otherwise" is log entry 12). -/
def Obligations.SignificandIsNotApplicableOutsideFiniteNonzero : Prop :=
  ∀ s : State, s.out.kind ≠ 1#3 → s.out.kind ≠ 2#3 →
    exec .significand s =
      .next { s with
        out := { s.out with sig := 0#s.fmt.p, sigValid := false }
        view := { s.view with significand := none }
        reply := .results }

/-- `sig_valid = is_subnormal or is_normal` for every word, and the hidden bit is `is_normal` whenever it is 1 (R30, R93, R94). -/
def Obligations.SigValidMarksTheFiniteNonzeroWords : Prop :=
  ∀ (f : FormatSpec) (w : BitVec f.N),
    let o := decodeOutputs f w
    o.sigValid = (o.isSubnormal || o.isNormal) ∧ (o.sigValid = true → o.sig.getLsbD (f.p - 1) = o.isNormal) ∧
    ((decodeView f Config.defaultSep w).significand.isSome = o.sigValid)

/-! ## The bias arithmetic and the value -/

/-- TEXP with the code of normal or subnormal on the port `kind`: the integer `exponent - bias` or `1 - bias`, and the port holds it without
wrapping; nothing else changes (R100, R113). -/
def Obligations.TexpIsTheTrueExponentWithoutWrapping : Prop :=
  ∀ (s : State) (e : Int),
    (s.out.kind = 2#3 ∧ e = (s.out.exponent.toNat : Int) - s.fmt.bias) ∨ (s.out.kind = 1#3 ∧ e = 1 - s.fmt.bias) →
    ∃ t : BitVec (s.fmt.k + 1),
      exec .texp s =
        .next { s with
          out := { s.out with texp := t }
          view := { s.view with trueExponent := some e }
          reply := .results } ∧
      t.toInt = e

/-- TEXP with any code but those of normal and subnormal on the port `kind`: no true exponent, and zero on the port, which carries no meaning
(R100, D13; log entry 12 for a code that names no kind). -/
def Obligations.TexpIsNotApplicableOutsideFiniteNonzero : Prop :=
  ∀ s : State, s.out.kind ≠ 1#3 → s.out.kind ≠ 2#3 →
    exec .texp s =
      .next { s with
        out := { s.out with texp := 0#(s.fmt.k + 1) }
        view := { s.view with trueExponent := none }
        reply := .results }

/-- The scale of a normal word lies in `1 - bias .. 2^k - 2 - bias`; of a subnormal word it is `1 - bias`, the scale of the least normal
exponent; and the port `texp` holds it (R100). -/
def Obligations.TrueExponentStaysInItsRange : Prop :=
  ∀ (f : FormatSpec) (w : BitVec f.N), (decodeOutputs f w).sigValid = true →
    (decodeView f Config.defaultSep w).trueExponent = some (decodeOutputs f w).texp.toInt ∧
    1 - f.bias ≤ (decodeOutputs f w).texp.toInt ∧
    (kindOfWord f w = .normal → (decodeOutputs f w).texp.toInt ≤ (2 : Int) ^ f.k - 2 - f.bias) ∧
    (kindOfWord f w = .subnormal → (decodeOutputs f w).texp.toInt = 1 - f.bias)

/-- VALUE.zero, VALUE.infinity and VALUE.nan on the code of their kind: the signed zero, the signed infinity, the one NaN with the sign not
applied; `val_neg` the value's sign; nothing else changes (R101, R102, R103, R108). -/
def Obligations.ValueOfTheNonfiniteKindsAndZero : Prop :=
  ∀ s : State,
    (s.out.kind = 0#3 → exec .valueZero s =
      .next { s with
        view := { s.view with value := .zero s.out.signBit }
        out := { s.out with valNeg := s.out.signBit }
        reply := .results }) ∧
    (s.out.kind = 3#3 → exec .valueInfinity s =
      .next { s with
        view := { s.view with value := .inf s.out.signBit }
        out := { s.out with valNeg := s.out.signBit }
        reply := .results }) ∧
    (s.out.kind = 4#3 → exec .valueNan s =
      .next { s with
        view := { s.view with value := .nan }
        out := { s.out with valNeg := false }
        reply := .results })

/-- VALUE.subnormal on the code of its kind: `sign * 2^(-(bias-1)) * fraction`, exact; nothing else changes (R104). -/
def Obligations.ValueSubnormalScalesTheFraction : Prop :=
  ∀ s : State, s.out.kind = 1#3 → exec .valueSubnormal s =
    .next { s with
      view := { s.view with
        value := .fin ((-1 : Rat) ^ s.out.signBit.toNat * (2 : Rat) ^ (-(s.fmt.bias - 1)) *
          ((s.out.fraction.toNat : Rat) / 2 ^ (s.fmt.p - 1))) }
      out := { s.out with valNeg := s.out.signBit }
      reply := .results }

/-- VALUE.normal on the code of its kind: `sign * 2^(exponent-bias) * (1+fraction)`, exact; nothing else changes (R105). -/
def Obligations.ValueNormalScalesTheSignificand : Prop :=
  ∀ s : State, s.out.kind = 2#3 → exec .valueNormal s =
    .next { s with
      view := { s.view with
        value := .fin ((-1 : Rat) ^ s.out.signBit.toNat * (2 : Rat) ^ ((s.out.exponent.toNat : Int) - s.fmt.bias) *
          (1 + (s.out.fraction.toNat : Rat) / 2 ^ (s.fmt.p - 1))) }
      out := { s.out with valNeg := s.out.signBit }
      reply := .results }

/-- A case of the Value Resolver whose kind is not the one on the port has nothing to give: only the caller's reply changes. This is the
model's reading of the case split (log entry 5). -/
def Obligations.UnselectedValueCaseChangesNothing : Prop :=
  ∀ (s : State) (i : Instr) (k : Kind),
    (i, k) ∈ [(Instr.valueZero, Kind.zero), (.valueInfinity, .infinity), (.valueNan, .nan), (.valueSubnormal, .subnormal),
      (.valueNormal, .normal)] →
    s.out.kind ≠ kindCode k → s.out.kind.toNat ≤ 4 → exec i s = .next { s with reply := .results }

/-- A kind code of 5, 6 or 7 handed to the Value Resolver is an InternalError: it is given no value and mapped onto none of the five kinds;
no word leads there (R106). -/
def Obligations.ValueOnASixthKindIsInternalError : Prop :=
  (∀ (s : State) (i : Instr), i ∈ [Instr.valueZero, .valueInfinity, .valueNan, .valueSubnormal, .valueNormal] →
    5 ≤ s.out.kind.toNat → exec i s = .fault (.internalError s.out.kind)) ∧
  (∀ (f : FormatSpec) (c : BitVec 3) (n : Bool) (t : BitVec f.XW) (m : BitVec f.p), 5 ≤ c.toNat →
    denote f c n t m = .error .internalError) ∧
  (∀ (f : FormatSpec) (w : BitVec f.N), let o := decodeOutputs f w
    denote f o.kind o.valNeg o.texp o.sig ≠ .error .internalError)

/-- The denotation `Val` of the four value ports by their kind code, and that the value ports of every word denote the word's value, the `value` of
R101 to R105, whose finite numbers are not zero (R107). -/
def Obligations.ValuePortsDenoteTheValue : Prop :=
  (∀ (f : FormatSpec) (n : Bool) (t : BitVec (f.k + 1)) (m : BitVec f.p),
    denote f 0#3 n t m = .ok (.zero n) ∧ denote f 3#3 n t m = .ok (.inf n) ∧ denote f 4#3 n t m = .ok .nan ∧
    (∀ c, c = 1#3 ∨ c = 2#3 → denote f c n t m =
      .ok (.fin ((-1 : Rat) ^ n.toNat * (m.toNat : Rat) * (2 : Rat) ^ (t.toInt - ((f.p : Int) - 1)))))) ∧
  (∀ (f : FormatSpec) (w : BitVec f.N),
    let o := decodeOutputs f w
    denote f o.kind o.valNeg o.texp o.sig = .ok (valueOfWord f w) ∧
    (∀ q, valueOfWord f w = .fin q → q ≠ 0))

/-- `val_neg = S and not is_nan`, `sign_neg = S`; they differ exactly on the nan words with `S = 1` (R29, R108). -/
def Obligations.ValNegDropsTheSignOfNanOnly : Prop :=
  ∀ (f : FormatSpec) (w : BitVec f.N),
    let o := decodeOutputs f w
    o.signNeg = w.getLsbD (f.N - 1) ∧ o.valNeg = (w.getLsbD (f.N - 1) && !o.isNan) ∧
    (o.valNeg ≠ o.signNeg ↔ kindOfWord f w = .nan ∧ w.getLsbD (f.N - 1) = true)

/-- `FEq`: NaN equals nothing, itself included; the zeros are equal whatever their signs; infinities by sign, finite numbers by number;
different kinds never (R109, D16). -/
def Obligations.OrdinaryEqualityOfValues : Prop :=
  (∀ a, feq .nan a = false ∧ feq a .nan = false) ∧ (∀ m n, feq (.zero m) (.zero n) = true) ∧
  (∀ m n, feq (.inf m) (.inf n) = true ↔ m = n) ∧ (∀ q r, feq (.fin q) (.fin r) = true ↔ q = r) ∧
  (∀ m n q, feq (.zero m) (.inf n) = false ∧ feq (.inf n) (.zero m) = false ∧ feq (.zero m) (.fin q) = false ∧
    feq (.fin q) (.zero m) = false ∧ feq (.inf n) (.fin q) = false ∧ feq (.fin q) (.inf n) = false)

/-- The integer form of a finite value that is not zero: `(-1)^val_neg * M * 2^Q` with `M = uint(sig)` and `Q = sint(texp) - (p - 1)`, the
ranges of `M`, and the least `Q` (R111). -/
def Obligations.FiniteValueHasItsIntegerForm : Prop :=
  ∀ (f : FormatSpec) (w : BitVec f.N),
    let o := decodeOutputs f w
    o.sigValid = true →
      valueOfWord f w =
        .fin ((-1 : Rat) ^ o.valNeg.toNat * (o.sig.toNat : Rat) * (2 : Rat) ^ (o.texp.toInt - ((f.p : Int) - 1))) ∧
      1 ≤ o.sig.toNat ∧ o.sig.toNat ≤ 2 ^ f.p - 1 ∧
      (o.isSubnormal = true → o.sig.toNat < 2 ^ (f.p - 1)) ∧ (o.isNormal = true → 2 ^ (f.p - 1) ≤ o.sig.toNat) ∧
      1 - f.bias - ((f.p : Int) - 1) ≤ o.texp.toInt - ((f.p : Int) - 1) ∧
      (o.texp.toInt - ((f.p : Int) - 1) = 1 - f.bias - ((f.p : Int) - 1) ↔ o.exponent.toNat ≤ 1)

/-- Magnitude is monotonic in the word: of two positive words that are no NaN, the one with the lesser number has the lesser value, from `+0`
to `+infinity` (R111). -/
def Obligations.MagnitudeIsMonotonicInTheWord : Prop :=
  ∀ (f : FormatSpec) (w1 w2 : BitVec f.N), fieldS f w1 = false → fieldS f w2 = false → kindOfWord f w1 ≠ .nan →
    kindOfWord f w2 ≠ .nan → w1.toNat < w2.toNat → below (valueOfWord f w1) (valueOfWord f w2)

/-- The least and the greatest magnitude of the subnormal and of the normal words, and which words have them: of the subnormal ones those with
`uint(F) = 1` and with `F` all ones; of the normal ones those with `exponent = 1`, `F = 0` and with `exponent = 2^k - 2`, `F` all ones (R104,
R105). -/
def Obligations.FiniteMagnitudesStayBetweenTheirExtremes : Prop :=
  ∀ (f : FormatSpec) (w : BitVec f.N) (q : Rat), valueOfWord f w = .fin q →
    (kindOfWord f w = .subnormal →
      (2 : Rat) ^ (1 - f.bias - ((f.p : Int) - 1)) ≤ |q| ∧
      |q| ≤ (2 : Rat) ^ (1 - f.bias) * (1 - (2 : Rat) ^ (-((f.p : Int) - 1))) ∧
      (|q| = (2 : Rat) ^ (1 - f.bias - ((f.p : Int) - 1)) ↔ (fieldF f w).toNat = 1) ∧
      (|q| = (2 : Rat) ^ (1 - f.bias) * (1 - (2 : Rat) ^ (-((f.p : Int) - 1))) ↔ (fieldF f w).toNat = 2 ^ (f.p - 1) - 1)) ∧
    (kindOfWord f w = .normal →
      (2 : Rat) ^ (1 - f.bias) ≤ |q| ∧
      |q| ≤ (2 : Rat) ^ ((2 : Int) ^ f.k - 2 - f.bias) * (2 - (2 : Rat) ^ (-((f.p : Int) - 1))) ∧
      (|q| = (2 : Rat) ^ (1 - f.bias) ↔ (fieldE f w).toNat = 1 ∧ (fieldF f w).toNat = 0) ∧
      (|q| = (2 : Rat) ^ ((2 : Int) ^ f.k - 2 - f.bias) * (2 - (2 : Rat) ^ (-((f.p : Int) - 1))) ↔
        (fieldE f w).toNat = 2 ^ f.k - 2 ∧ (fieldF f w).toNat = 2 ^ (f.p - 1) - 1))

/-! ## The presentation views -/

/-- STRBITS: `N + 2` characters: the sign digit, `SEP`, the exponent digits and, after `SEP` again, the fraction digits, most significant
first; nothing else changes (R120). -/
def Obligations.StrbitsGroupsTheDigits : Prop :=
  ∀ s : State, ∃ t : Text,
    exec .strbits s = .next { s with view := { s.view with strBits := t }, reply := .results } ∧
    t.length = s.fmt.N + 2 ∧
    t[0]? = some (if s.out.signBit then '1' else '0') ∧ t[1]? = some s.sep ∧ t[s.fmt.k + 2]? = some s.sep ∧
    (∀ i, i < s.fmt.k → t[2 + i]? = some (if s.out.exponent.getLsbD (s.fmt.k - 1 - i) then '1' else '0')) ∧
    (∀ j, j < s.fmt.p - 1 → t[s.fmt.k + 3 + j]? = some (if s.out.fraction.getLsbD (s.fmt.p - 2 - j) then '1' else '0'))

/-- Round trip: `str_bits` of an accepted text with its two separators removed is the text, character for character; and where `SEP` is a
space or an underscore, cleaning `str_bits` and loading it gives the word (R121). -/
def Obligations.StrbitsReproducesTheText : Prop :=
  ∀ (f : FormatSpec) (sep : Char) (t : Text) (w : BitVec f.N), loadText f t = .ok w →
    removeSeparators f (decodeView f sep w).strBits = t ∧
    (sep = ' ' ∨ sep = '_' → loadText f (clean (decodeView f sep w).strBits) = .ok w)

/-- SUMMARY: exactly the ten keys, each with the caller's reading of it or the parameter of the FormatSpec, the significand's entry being
the sentinel where there is none; nothing else changes (R123, R124). -/
def Obligations.SummaryHasTheTenEntries : Prop :=
  ∀ s : State, ∃ e : SummaryEntry,
    exec .summary s =
      .next { s with
        view := { s.view with summary :=
          [(.value, .value s.view.value), (.kind, .kind s.view.kind), (.k, .natural s.fmt.k), (.p, .natural s.fmt.p),
            (.bias, .integer s.fmt.bias), (.strBits, .text s.view.strBits), (.sign, .integer s.view.sign),
            (.exponent, .natural s.view.exponent), (.fraction, .rational s.view.fraction), (.significand, e)] }
        reply := .results } ∧
    (s.view.significand = none → e = .notApplicable) ∧ (∀ q, s.view.significand = some q → e = .rational q)

/-- Cleanup deletes every space and underscore and nothing else, and keeps the order of the rest (R58). -/
def Obligations.CleanDeletesTheSeparatorsOnly : Prop :=
  clean [] = [] ∧ (∀ t, clean (' ' :: t) = clean t) ∧ (∀ t, clean ('_' :: t) = clean t) ∧
  (∀ c t, c ≠ ' ' → c ≠ '_' → clean (c :: t) = c :: clean t)

/-! ## The whole block -/

/-- The state taken for reset is settled: its outputs and readings are those of the word on its port (R35; the state itself is log entry
1). -/
def Obligations.ResetIsSettled : Prop := State.reset.Settled

/-- Every step keeps all outputs and readings those of the word on the port, whatever the input was: an accepted text, a refused one, a word
or a request (R20, R34, R46; that a refused text leads to a next state is log entry 4, that an unselected VALUE request does is log entry
5). -/
def Obligations.EveryStepKeepsTheOutputsSettled : Prop :=
  ∀ s t : State, s.Settled → step s = .next t → t.Settled

/-- No step from a settled state stops: InternalError is unreachable, and no word and no request is refused (R86, R106, R131). That a refused
text leads to a next state is the model's choice (log entry 4), and that an unselected VALUE request answers is its reading (log entry 5). -/
def Obligations.NoSettledStateStops : Prop :=
  ∀ s : State, s.Settled → ∃ t, step s = .next t

/-- Runs of every length from a settled state are safe (R131). A refused text counts as an answered step here, which is the model's choice (log
entry 4; R134 leaves it to the claim), and so does an unselected VALUE request, which is its reading (log entry 5). -/
def Obligations.RunsOfEveryLengthAreSafe : Prop :=
  ∀ (n : Nat) (s : State), s.Settled → SafeRun n s

/-- The FormatSpec and the separator never change, and each step takes at most the one input it answers (R13, R24). -/
def Obligations.ConfigurationNeverChanges : Prop :=
  ∀ s t : State, step s = .next t → SameBlock s t ∧ ∃ h : t.fmt = s.fmt, h ▸ t.inputs = s.inputs.tail

/-- Nothing an earlier input left can be seen in the answer to a word or to an accepted text, or, with no input left, in the evaluation of
the word on the port: with any other outputs, readings and reply in their place the next state is the same (R20, R34). -/
def Obligations.AnswersDoNotDependOnEarlierInputs : Prop :=
  ∀ (s : State) (out : Outputs s.fmt) (view : View) (reply : Reply),
    (∀ (v w' : BitVec s.fmt.N) rest,
      step { s with inputs := .word v :: rest, w := w', out := out, view := view, reply := reply } =
        step { s with inputs := .word v :: rest }) ∧
    (∀ t (w' : BitVec s.fmt.N) rest, Accepted s.fmt t →
      step { s with inputs := .text t :: rest, w := w', out := out, view := view, reply := reply } =
        step { s with inputs := .text t :: rest }) ∧
    step { s with inputs := [], out := out, view := view, reply := reply } = step { s with inputs := [] }

/-- Lazy and eager evaluation agree: the operations one after another in the dependency order, from any state, leave what driving the word
leaves (R22, R156, `spec/43_value.md` section 5). -/
def Obligations.OperationsInOrderSettleTheBlock : Prop :=
  ∀ s : State, runOperations evaluationOrder s =
    .next { s with out := decodeOutputs s.fmt s.w, view := decodeView s.fmt s.sep s.w, reply := .results }

/-- In a settled state every operation repeats what the caller has: nothing but the reply changes (R34, R122, R156). That the four VALUE cases
which the word's kind does not select change nothing but the reply is the model's reading (log entry 5). -/
def Obligations.OperationsRepeatASettledBlock : Prop :=
  ∀ (s : State) (op : Operation), s.Settled → exec op.instr s = .next { s with reply := .results }

/-- With no input yet, the state taken for reset evaluates the word on its port, which is the positive zero word, and stays as it is (R35,
R151; the state itself is log entry 1). -/
def Obligations.NoInputYetDecodesThePositiveZero : Prop :=
  step State.reset = .next State.reset ∧ State.reset.view.value = .zero false

/-- An FPCD is built from exactly the admitted triples and refused for every other (R7, R8, R9). -/
def Obligations.BuildAdmitsExactlyTheRanges : Prop :=
  ∀ (k p : Nat) (bias : Int) (sep : Char),
    (1 ≤ k → 2 ≤ p → 0 ≤ bias → bias ≤ (2 : Int) ^ k - 1 →
      ∃ s, State.build k p bias sep = .next s ∧ s.fmt.k = k ∧ s.fmt.p = p ∧ s.fmt.bias = bias ∧ s.sep = sep ∧ s.inputs = []) ∧
    (k < 1 ∨ p < 2 ∨ bias < 0 ∨ (2 : Int) ^ k - 1 < bias → State.build k p bias sep = .refused .formatSpecNotAdmitted)

/-- The six presets with their derived widths, row by row, and `bias = 2^(k-1) - 1` in each (R12). -/
def Obligations.PresetsAreConsistent : Prop :=
  [FormatSpec.float16, .bfloat16, .float32, .float64, .float128, .float256].map (fun f => (f.k, f.p, f.bias, f.FW, f.N, f.XW)) =
    [(5, 11, 15, 10, 16, 6), (8, 8, 127, 7, 16, 9), (8, 24, 127, 23, 32, 9), (11, 53, 1023, 52, 64, 12),
      (15, 113, 16383, 112, 128, 16), (19, 237, 262143, 236, 256, 20)] ∧
  ∀ f ∈ [FormatSpec.float16, .bfloat16, .float32, .float64, .float128, .float256], f.bias = 2 ^ (f.k - 1) - 1

/-- Blocks side by side share nothing: a step of one leaves every other as it was, and steps of two different ones can be taken in either
order (R47, R140). -/
def Obligations.BlocksDoNotInteract : Prop :=
  (∀ (sys sys' : System) (i j : Nat), System.stepAt i sys = .next sys' → i ≠ j → sys'[j]? = sys[j]?) ∧
  (∀ (sys a b : System) (i j : Nat), i ≠ j → System.stepAt i sys = .next a → System.stepAt j sys = .next b →
    ∃ c, System.stepAt j a = .next c ∧ System.stepAt i b = .next c)
end

