-- ==== Sys2Proof/Laws/State.lean ====
section
/-! SUPPORT. The fields of a state after each named update: one lemma per field and update. -/

namespace Sys2Proof.Machine

@[simp] theorem State.answer_fmt (s : State) : (s.answer).fmt = s.fmt := rfl
@[simp] theorem State.answer_sep (s : State) : (s.answer).sep = s.sep := rfl
@[simp] theorem State.answer_w (s : State) : (s.answer).w = s.w := rfl
@[simp] theorem State.answer_out (s : State) : (s.answer).out = s.out := rfl
@[simp] theorem State.answer_view (s : State) : (s.answer).view = s.view := rfl
@[simp] theorem State.answer_reply (s : State) : (s.answer).reply = .results := rfl
@[simp] theorem State.answer_inputs (s : State) : (s.answer).inputs = s.inputs := rfl

@[simp] theorem State.afterError_fmt (s : State) : (s.afterError).fmt = s.fmt := rfl
@[simp] theorem State.afterError_sep (s : State) : (s.afterError).sep = s.sep := rfl
@[simp] theorem State.afterError_w (s : State) : (s.afterError).w = s.w := rfl
@[simp] theorem State.afterError_out (s : State) : (s.afterError).out = s.out := rfl
@[simp] theorem State.afterError_view (s : State) : (s.afterError).view = s.view := rfl
@[simp] theorem State.afterError_reply (s : State) : (s.afterError).reply = .results := rfl
@[simp] theorem State.afterError_inputs (s : State) : (s.afterError).inputs = s.inputs := rfl

@[simp] theorem State.raise_fmt (e : Error) (s : State) : (s.raise e).fmt = s.fmt := rfl
@[simp] theorem State.raise_sep (e : Error) (s : State) : (s.raise e).sep = s.sep := rfl
@[simp] theorem State.raise_w (e : Error) (s : State) : (s.raise e).w = s.w := rfl
@[simp] theorem State.raise_out (e : Error) (s : State) : (s.raise e).out = s.out := rfl
@[simp] theorem State.raise_view (e : Error) (s : State) : (s.raise e).view = s.view := rfl
@[simp] theorem State.raise_reply (e : Error) (s : State) : (s.raise e).reply = .error e := rfl
@[simp] theorem State.raise_inputs (e : Error) (s : State) : (s.raise e).inputs = s.inputs := rfl

@[simp] theorem State.deliver_fmt (s : State) (w : BitVec s.fmt.N) (out : Outputs s.fmt) (view : View) : (s.deliver w out view).fmt = s.fmt := rfl
@[simp] theorem State.deliver_sep (s : State) (w : BitVec s.fmt.N) (out : Outputs s.fmt) (view : View) : (s.deliver w out view).sep = s.sep := rfl
@[simp] theorem State.deliver_w (s : State) (w : BitVec s.fmt.N) (out : Outputs s.fmt) (view : View) : (s.deliver w out view).w = w := rfl
@[simp] theorem State.deliver_out (s : State) (w : BitVec s.fmt.N) (out : Outputs s.fmt) (view : View) : (s.deliver w out view).out = out := rfl
@[simp] theorem State.deliver_view (s : State) (w : BitVec s.fmt.N) (out : Outputs s.fmt) (view : View) : (s.deliver w out view).view = view := rfl
@[simp] theorem State.deliver_reply (s : State) (w : BitVec s.fmt.N) (out : Outputs s.fmt) (view : View) : (s.deliver w out view).reply = .results := rfl
@[simp] theorem State.deliver_inputs (s : State) (w : BitVec s.fmt.N) (out : Outputs s.fmt) (view : View) : (s.deliver w out view).inputs = s.inputs := rfl

@[simp] theorem State.drive_fmt (s : State) (w : BitVec s.fmt.N) : (s.drive w).fmt = s.fmt := rfl
@[simp] theorem State.drive_sep (s : State) (w : BitVec s.fmt.N) : (s.drive w).sep = s.sep := rfl
@[simp] theorem State.drive_w (s : State) (w : BitVec s.fmt.N) : (s.drive w).w = w := rfl
@[simp] theorem State.drive_out (s : State) (w : BitVec s.fmt.N) : (s.drive w).out = decodeOutputs s.fmt w := rfl
@[simp] theorem State.drive_view (s : State) (w : BitVec s.fmt.N) : (s.drive w).view = decodeView s.fmt s.sep w := rfl
@[simp] theorem State.drive_reply (s : State) (w : BitVec s.fmt.N) : (s.drive w).reply = .results := rfl
@[simp] theorem State.drive_inputs (s : State) (w : BitVec s.fmt.N) : (s.drive w).inputs = s.inputs := rfl

@[simp] theorem State.settle_fmt (s : State) : (s.settle).fmt = s.fmt := rfl
@[simp] theorem State.settle_sep (s : State) : (s.settle).sep = s.sep := rfl
@[simp] theorem State.settle_w (s : State) : (s.settle).w = s.w := rfl
@[simp] theorem State.settle_out (s : State) : (s.settle).out = decodeOutputs s.fmt s.w := rfl
@[simp] theorem State.settle_view (s : State) : (s.settle).view = decodeView s.fmt s.sep s.w := rfl
@[simp] theorem State.settle_reply (s : State) : (s.settle).reply = .results := rfl
@[simp] theorem State.settle_inputs (s : State) : (s.settle).inputs = s.inputs := rfl

@[simp] theorem State.present_fmt (s : State) (v : BitVec s.fmt.N) : (s.present v).fmt = s.fmt := rfl
@[simp] theorem State.present_sep (s : State) (v : BitVec s.fmt.N) : (s.present v).sep = s.sep := rfl
@[simp] theorem State.present_w (s : State) (v : BitVec s.fmt.N) : (s.present v).w = s.w := rfl
@[simp] theorem State.present_out (s : State) (v : BitVec s.fmt.N) : (s.present v).out = s.out := rfl
@[simp] theorem State.present_view (s : State) (v : BitVec s.fmt.N) : (s.present v).view = s.view := rfl
@[simp] theorem State.present_reply (s : State) (v : BitVec s.fmt.N) : (s.present v).reply = s.reply := rfl
@[simp] theorem State.present_inputs (s : State) (v : BitVec s.fmt.N) : (s.present v).inputs = .word v :: s.inputs := rfl

@[simp] theorem State.built_fmt (f : FormatSpec) (sep : Char) : (State.built f sep).fmt = f := rfl
@[simp] theorem State.built_sep (f : FormatSpec) (sep : Char) : (State.built f sep).sep = sep := rfl
@[simp] theorem State.built_w (f : FormatSpec) (sep : Char) : (State.built f sep).w = 0#f.N := rfl
@[simp] theorem State.built_out (f : FormatSpec) (sep : Char) : (State.built f sep).out = Outputs.ofZeroWord f := rfl
@[simp] theorem State.built_view (f : FormatSpec) (sep : Char) : (State.built f sep).view = View.ofZeroWord f sep := rfl
@[simp] theorem State.built_reply (f : FormatSpec) (sep : Char) : (State.built f sep).reply = .results := rfl
@[simp] theorem State.built_inputs (f : FormatSpec) (sep : Char) : (State.built f sep).inputs = [] := rfl

@[simp] theorem View.withSummary_kind (f : FormatSpec) (v : View) : (v.withSummary f).kind = v.kind := rfl
@[simp] theorem View.withSummary_sign (f : FormatSpec) (v : View) : (v.withSummary f).sign = v.sign := rfl
@[simp] theorem View.withSummary_exponent (f : FormatSpec) (v : View) : (v.withSummary f).exponent = v.exponent := rfl
@[simp] theorem View.withSummary_fraction (f : FormatSpec) (v : View) : (v.withSummary f).fraction = v.fraction := rfl
@[simp] theorem View.withSummary_significand (f : FormatSpec) (v : View) : (v.withSummary f).significand = v.significand := rfl
@[simp] theorem View.withSummary_trueExponent (f : FormatSpec) (v : View) : (v.withSummary f).trueExponent = v.trueExponent := rfl
@[simp] theorem View.withSummary_value (f : FormatSpec) (v : View) : (v.withSummary f).value = v.value := rfl
@[simp] theorem View.withSummary_strBits (f : FormatSpec) (v : View) : (v.withSummary f).strBits = v.strBits := rfl

@[simp] theorem View.withSummary_summary (f : FormatSpec) (v : View) : (v.withSummary f).summary = v.summarise f := rfl

/-- Raising an error and then going on is answering: the error leaves nothing behind (R134). -/
@[simp] theorem State.afterError_raise (e : Error) (s : State) : (s.raise e).afterError = s.answer := rfl

@[simp] theorem State.answer_answer (s : State) : s.answer.answer = s.answer := rfl

@[simp] theorem State.settle_settle (s : State) : s.settle.settle = s.settle := rfl

/-- Driving a word leaves nothing of the word before it. -/
@[simp] theorem State.drive_drive (s : State) (w w' : BitVec s.fmt.N) : (s.drive w).drive w' = s.drive w' := rfl

end Sys2Proof.Machine
end

