-- ==== Sys2Proof/Laws/Ops.lean ====
section
/-! SUPPORT. What each shared operation can do, said once: kinds and codes, loading a text, one case of the Value Resolver, the five word
classes, building an FPCD, and where the next instruction comes from. -/

namespace Sys2Proof.Machine

theorem kindOfCode_kindCode (k : Kind) : kindOfCode (kindCode k) = some k := by cases k <;> rfl

theorem kindOfCode_eq_some (c : BitVec 3) (k : Kind) : kindOfCode c = some k ↔ c = kindCode k := by
  revert c; cases k <;> decide

theorem kindOfCode_eq_none (c : BitVec 3) : kindOfCode c = none ↔ 5 ≤ c.toNat := by
  revert c; decide

/-- A bit vector of at least one bit is not both all ones and all zeros (R85). -/
theorem not_allOnes_of_allZeros {v : BitVec n} (hn : 1 ≤ n) (h : allZeros v = true) : allOnes v = false := by
  have hv : v = 0#n := by simpa [allZeros] using h
  have : (1 : Nat) < 2 ^ n := Nat.one_lt_two_pow (by omega)
  simp only [allOnes, hv, beq_eq_false_iff_ne, ne_eq]
  intro h0
  have := congrArg BitVec.toNat h0
  simp at this
  omega

theorem allZeros_iff (v : BitVec n) : allZeros v = true ↔ v.toNat = 0 := by
  simp [allZeros, ← BitVec.toNat_inj]

theorem allOnes_iff (v : BitVec n) : allOnes v = true ↔ v.toNat = 2 ^ n - 1 := by
  simp [allOnes, ← BitVec.toNat_inj]

/-- What `Load` answers: a word, and then the text has `N` digits, or FormatError, and then it has not (R70 to R72). -/
theorem loadText_cases (f : FormatSpec) (t : Text) :
    (t.length = f.N ∧ (t.any fun c => !isDigit c) = false ∧ loadText f t = .ok (BitVec.ofNat f.N (textNumber t))) ∨
    ((t.length ≠ f.N ∨ (t.any fun c => !isDigit c) = true) ∧ loadText f t = .error .formatError) := by
  unfold loadText
  by_cases hl : t.length = f.N
  · cases hd : (t.any fun c => !isDigit c) <;> simp_all
  · simp [hl]

/-- Every error of `Load` is FormatError (R130). -/
theorem loadText_error {f : FormatSpec} {t : Text} {e : Error} (h : loadText f t = .error e) : e = .formatError := by
  rcases loadText_cases f t with ⟨_, _, h'⟩ | ⟨_, h'⟩ <;> rw [h'] at h <;> cases h
  rfl

/-- LOAD always answers a next state: the word driven, or the error taken. -/
theorem execLoad_cases (t : Text) (s : State) :
    (∃ w, loadText s.fmt t = .ok w ∧ execLoad t s = .next (s.drive w)) ∨
    (loadText s.fmt t = .error .formatError ∧ execLoad t s = .next (s.raise .formatError)) := by
  unfold execLoad
  cases h : loadText s.fmt t with
  | ok w => exact .inl ⟨w, rfl, rfl⟩
  | error e => obtain rfl := loadText_error h; exact .inr ⟨rfl, rfl⟩

/-- One case of the Value Resolver: it faults, or gives its value, or has nothing to give. -/
theorem valueCase_cases (k : Kind) (v : Value) (neg : Bool) (s : State) :
    (kindOfCode s.out.kind = none ∧ valueCase k v neg s = .fault (.internalError s.out.kind)) ∨
    (kindOfCode s.out.kind = some k ∧ valueCase k v neg s =
      .next { s.answer with view := { s.view with value := v }, out := { s.out with valNeg := neg } }) ∨
    (∃ k', kindOfCode s.out.kind = some k' ∧ k' ≠ k ∧ valueCase k v neg s = .next s.answer) := by
  unfold valueCase
  cases h : kindOfCode s.out.kind with
  | none => simp
  | some k' =>
    by_cases hk : k' = k
    · subst hk; simp
    · simp [hk]

/-- An instruction of a word class answers exactly when its fields are those of a word of the class. -/
theorem deliverClass_cases (i : Instr) (s : State) (out : BitVec s.fmt.N → Outputs s.fmt) (view : View) :
    (∃ w, encode s.fmt i = some w ∧ deliverClass i s out view = .next (s.deliver w (out w) view)) ∨
    (encode s.fmt i = none ∧ deliverClass i s out view = .refused .noWordOfItsClass) := by
  unfold deliverClass
  cases h : encode s.fmt i with
  | some w => exact .inl ⟨w, rfl, rfl⟩
  | none => exact .inr ⟨rfl, rfl⟩

/-- Encoding succeeds exactly for a well-formed instruction of the five word classes. -/
theorem encode_eq_some {f : FormatSpec} {i : Instr} {w : BitVec f.N} :
    encode f i = some w ↔ i.wellFormed f = true ∧ ∃ n, wordNumber f i = some n ∧ w = BitVec.ofNat f.N n := by
  unfold encode
  cases i.wellFormed f <;> cases wordNumber f i <;> simp [eq_comm]

theorem FormatSpec.build_eq_some {k p : Nat} {bias : Int} {f : FormatSpec} (h : FormatSpec.build k p bias = some f) :
    f.k = k ∧ f.p = p ∧ f.bias = bias := by
  unfold FormatSpec.build at h
  split at h
  · cases h; exact ⟨rfl, rfl, rfl⟩
  · cases h

theorem FormatSpec.build_eq_none {k p : Nat} {bias : Int} :
    FormatSpec.build k p bias = none ↔ ¬(1 ≤ k ∧ 2 ≤ p ∧ 0 ≤ bias ∧ bias < ((2 ^ k : Nat) : Int)) := by
  unfold FormatSpec.build
  split
  · next h => exact ⟨fun e => (by cases e), fun n => absurd h n⟩
  · next h => exact ⟨fun _ => h, fun _ => rfl⟩

/-- Fetching changes nothing but the list of inputs. -/
theorem State.fetch_frame (s : State) : ∃ rest, s.fetch.2 = { s with inputs := rest } := by
  obtain ⟨fmt, sep, w, out, view, reply, inputs⟩ := s
  cases inputs with
  | nil => exact ⟨[], rfl⟩
  | cons x rest => cases x <;> exact ⟨rest, rfl⟩

/-- Where the next instruction comes from. -/
theorem step_cases (s : State) :
    (s.inputs = [] ∧ step s = exec (decodeWord s.fmt s.w) s) ∨
    (∃ t rest, s.inputs = .text t :: rest ∧ step s = exec (.load t) { s with inputs := rest }) ∨
    (∃ v rest, s.inputs = .word v :: rest ∧ step s = exec (decodeWord s.fmt v) { s with inputs := rest }) ∨
    (∃ op rest, s.inputs = .request op :: rest ∧ step s = exec op.instr { s with inputs := rest }) := by
  unfold step State.fetch
  cases h : s.inputs with
  | nil => exact .inl ⟨rfl, rfl⟩
  | cons x rest =>
    cases x with
    | text t => exact .inr (.inl ⟨t, rest, rfl, rfl⟩)
    | word v => exact .inr (.inr (.inl ⟨v, rest, rfl, rfl⟩))
    | request op => exact .inr (.inr (.inr ⟨op, rest, rfl, rfl⟩))

theorem pow2_ofNat (n : Nat) : pow2 (n : Int) = (2 : Rat) ^ n := by simp [pow2]

/-- `pow2` is the power of two over the rationals. -/
theorem pow2_eq_zpow (e : Int) : pow2 e = (2 : Rat) ^ e := by
  cases e with
  | ofNat n => simp [pow2]
  | negSucc n => simp [pow2, Rat.mkRat_eq_div, zpow_negSucc]

theorem pow2_pos (e : Int) : 0 < pow2 e := by rw [pow2_eq_zpow]; positivity

theorem fractionOf_eq_div (f : FormatSpec) (F : BitVec f.FW) : fractionOf f F = (F.toNat : Rat) / 2 ^ f.FW := by
  simp [fractionOf, Rat.mkRat_eq_div]

theorem subnormalValue_eq (f : FormatSpec) (S : Bool) (F : BitVec f.FW) :
    subnormalValue f S F = .fin (signed S ((2 : Rat) ^ (1 - f.bias) * ((F.toNat : Rat) / 2 ^ f.FW))) := by
  simp [subnormalValue, pow2_eq_zpow, Rat.mkRat_eq_div]

theorem normalValue_eq (f : FormatSpec) (S : Bool) (E : BitVec f.k) (F : BitVec f.FW) :
    normalValue f S E F =
      .fin (signed S ((2 : Rat) ^ ((E.toNat : Int) - f.bias) * ((2 ^ f.FW + (F.toNat : Rat)) / 2 ^ f.FW))) := by
  simp [normalValue, pow2_eq_zpow, Rat.mkRat_eq_div]

end Sys2Proof.Machine
end

