-- ==== Sys2Proof/Laws/PerInstr.lean ====
section
/-! SUPPORT. A statement for every instruction, one lemma per constructor: the number an instruction's encoding writes is a word's, it fits
the `N` bits of the port (R10, R50). -/

namespace Sys2Proof.Laws.WordFits

/-- The number of a well-formed instruction of the five word classes is less than `2^N`. -/
def Statement (i : Instr) : Prop :=
  ∀ (f : FormatSpec) (n : Nat), i.wellFormed f = true → wordNumber f i = some n → n < 2 ^ f.N

/-- The three fields' weights fill the word: `2^N = 2 * 2^k * 2^(p-1)`. -/
theorem two_pow_N (f : FormatSpec) : 2 ^ f.N = 2 * (2 ^ f.k * 2 ^ f.FW) := by
  have := f.p_two
  rw [← Nat.pow_add, ← Nat.pow_succ']
  congr 1
  simp only [FormatSpec.N, FormatSpec.FW]
  omega

theorem signUnit_eq (f : FormatSpec) : signUnit f = 2 ^ f.k * 2 ^ f.FW := by
  have := f.p_two
  unfold signUnit
  rw [← Nat.pow_add]
  congr 1
  simp only [FormatSpec.N, FormatSpec.FW]
  omega

/-- Fields in their ranges make a number of the word. -/
theorem fields_lt (f : FormatSpec) (S : Bool) {E F : Nat} (hE : E < 2 ^ f.k) (hF : F < 2 ^ f.FW) :
    S.toNat * signUnit f + E * fractionUnit f + F < 2 ^ f.N := by
  have h1 : (E + 1) * 2 ^ f.FW ≤ 2 ^ f.k * 2 ^ f.FW := Nat.mul_le_mul_right _ hE
  rw [two_pow_N, signUnit_eq]
  unfold fractionUnit
  generalize 2 ^ f.k * 2 ^ f.FW = X at *
  rw [Nat.add_mul] at h1
  cases S <;> simp <;> omega

theorem two_pow_pos' (n : Nat) : 0 < 2 ^ n := Nat.two_pow_pos n

theorem zero (S : Bool) : Statement (.zero S) := by
  intro f n _ h
  have := fields_lt f S (two_pow_pos' f.k) (two_pow_pos' f.FW)
  simp only [wordNumber, Option.some.injEq] at h
  omega

theorem infinity (S : Bool) : Statement (.infinity S) := by
  intro f n _ h
  have hE : 2 ^ f.k - 1 < 2 ^ f.k := Nat.sub_lt (two_pow_pos' f.k) one_pos
  have := fields_lt f S hE (two_pow_pos' f.FW)
  simp only [wordNumber, Option.some.injEq, exponentMask] at h
  omega

theorem subnormal (S : Bool) (F : Nat) : Statement (.subnormal S F) := by
  intro f n hw h
  simp only [Instr.wellFormed, fractionNonzero, fractionFits, Bool.and_eq_true, decide_eq_true_eq] at hw
  have := fields_lt f S (two_pow_pos' f.k) hw.2
  simp only [wordNumber, Option.some.injEq] at h
  omega

theorem nan (S : Bool) (F : Nat) : Statement (.nan S F) := by
  intro f n hw h
  simp only [Instr.wellFormed, fractionNonzero, fractionFits, Bool.and_eq_true, decide_eq_true_eq] at hw
  have hE : 2 ^ f.k - 1 < 2 ^ f.k := Nat.sub_lt (two_pow_pos' f.k) one_pos
  have := fields_lt f S hE hw.2
  simp only [wordNumber, Option.some.injEq, exponentMask] at h
  omega

theorem normal (S : Bool) (E F : Nat) : Statement (.normal S E F) := by
  intro f n hw h
  simp only [Instr.wellFormed, exponentNormal, fractionFits, Bool.and_eq_true, decide_eq_true_eq] at hw
  have := fields_lt f S (show E < 2 ^ f.k by omega) hw.2
  simp only [wordNumber, Option.some.injEq] at h
  omega

/-- An operation is selected by no word. -/
theorem of_no_word {i : Instr} (h : ∀ f, wordNumber f i = none) : Statement i := by
  intro f n _ hn
  rw [h f] at hn
  cases hn

theorem load (t : Text) : Statement (.load t) := of_no_word fun _ => rfl
theorem partition : Statement .partition := of_no_word fun _ => rfl
theorem classify : Statement .classify := of_no_word fun _ => rfl
theorem sign : Statement .sign := of_no_word fun _ => rfl
theorem exponent : Statement .exponent := of_no_word fun _ => rfl
theorem fraction : Statement .fraction := of_no_word fun _ => rfl
theorem significand : Statement .significand := of_no_word fun _ => rfl
theorem texp : Statement .texp := of_no_word fun _ => rfl
theorem valueZero : Statement .valueZero := of_no_word fun _ => rfl
theorem valueInfinity : Statement .valueInfinity := of_no_word fun _ => rfl
theorem valueNan : Statement .valueNan := of_no_word fun _ => rfl
theorem valueSubnormal : Statement .valueSubnormal := of_no_word fun _ => rfl
theorem valueNormal : Statement .valueNormal := of_no_word fun _ => rfl
theorem strbits : Statement .strbits := of_no_word fun _ => rfl
theorem summary : Statement .summary := of_no_word fun _ => rfl

end Sys2Proof.Laws.WordFits
end

