-- ==== Sys2Proof/Laws/Words.lean ====
section
/-! SUPPORT. The fields of a word as numbers, the masks of R53 on them, the kind and the class of a word by its fields, the numbers on `sig`
and `texp`, accepted texts, and what a requested operation and a step of one block among several can change. -/

namespace Sys2Proof.Machine

/-- `-1` to the sign bit (R90). -/
theorem signed_eq (S : Bool) (q : Rat) : signed S q = (-1) ^ S.toNat * q := by cases S <;> simp [signed]

theorem fieldF_toNat (f : FormatSpec) (w : BitVec f.N) : (fieldF f w).toNat = w.toNat % 2 ^ f.FW := by
  simp [fieldF]

theorem fieldE_toNat (f : FormatSpec) (w : BitVec f.N) : (fieldE f w).toNat = w.toNat / 2 ^ f.FW % 2 ^ f.k := by
  simp [fieldE, Nat.shiftRight_eq_div_pow]

/-- `p - 1` as an integer is the fraction field's width (R10). -/
theorem p_sub_one (f : FormatSpec) : (f.p : Int) - 1 = (f.FW : Int) := by
  have := f.p_two
  simp only [FormatSpec.FW]
  omega

theorem two_le_two_pow_k (f : FormatSpec) : 2 ≤ 2 ^ f.k :=
  calc 2 = 2 ^ 1 := rfl
    _ ≤ 2 ^ f.k := Nat.pow_le_pow_right (by omega) f.k_pos

/-- `uint(w) & Emask` keeps the exponent field in its place (R53). -/
theorem and_exponentMask (f : FormatSpec) (u : Nat) : u &&& exponentMask f = u / 2 ^ f.FW % 2 ^ f.k * 2 ^ f.FW := by
  unfold exponentMask fractionUnit
  rw [← Nat.shiftLeft_eq, ← Nat.shiftLeft_eq]
  generalize f.FW = m
  generalize f.k = k
  apply Nat.eq_of_testBit_eq
  intro i
  simp [Nat.testBit_and, Nat.testBit_shiftLeft, Nat.testBit_two_pow_sub_one, Nat.testBit_mod_two_pow, Nat.testBit_div_two_pow]
  by_cases h : m ≤ i <;> simp [h]
  rw [Bool.and_comm]

/-- `Emask | Fmask` is all bits but the sign bit (R52). -/
theorem exponentMask_or_fractionMask (f : FormatSpec) : exponentMask f ||| fractionMask f = 2 ^ (f.k + f.FW) - 1 := by
  unfold exponentMask fractionMask fractionUnit
  rw [← Nat.shiftLeft_eq]
  generalize f.FW = m
  generalize f.k = k
  apply Nat.eq_of_testBit_eq
  intro i
  simp [Nat.testBit_shiftLeft, Nat.testBit_two_pow_sub_one]
  rw [Bool.eq_iff_iff]
  simp
  omega

/-- `uint(w) & (Emask | Fmask)` keeps both fields (R53). -/
theorem and_bothMasks (f : FormatSpec) (u : Nat) :
    u &&& (exponentMask f ||| fractionMask f) = u / 2 ^ f.FW % 2 ^ f.k * 2 ^ f.FW + u % 2 ^ f.FW := by
  rw [exponentMask_or_fractionMask, Nat.and_two_pow_sub_one_eq_mod, Nat.add_comm f.k, Nat.pow_add, Nat.mod_mul]
  ring

/-- An exponent and a fraction field are read off their weighted sum. -/
theorem fields_unique (f : FormatSpec) {E F E' F' : Nat} (h : F < 2 ^ f.FW) (h' : F' < 2 ^ f.FW) :
    E * 2 ^ f.FW + F = E' * 2 ^ f.FW + F' ↔ E = E' ∧ F = F' := by
  refine ⟨fun hh => ?_, fun ⟨hE, hF⟩ => by rw [hE, hF]⟩
  have h1 : (E * 2 ^ f.FW + F) / 2 ^ f.FW = E := by
    rw [mul_comm, Nat.mul_add_div (by positivity), Nat.div_eq_of_lt h, add_zero]
  have h2 : (E' * 2 ^ f.FW + F') / 2 ^ f.FW = E' := by
    rw [mul_comm, Nat.mul_add_div (by positivity), Nat.div_eq_of_lt h', add_zero]
  rw [hh, h2] at h1
  subst h1
  exact ⟨rfl, by omega⟩

/-- The kind of a word by its fields as numbers (R80 to R84). -/
theorem kindOfWord_eq (f : FormatSpec) (w : BitVec f.N) : kindOfWord f w =
    if (fieldE f w).toNat = 2 ^ f.k - 1 then (if (fieldF f w).toNat = 0 then .infinity else .nan)
    else if (fieldE f w).toNat = 0 then (if (fieldF f w).toNat = 0 then .zero else .subnormal)
    else .normal := by
  have := two_le_two_pow_k f
  unfold kindOfWord kindOf isNan isInfinity isSubnormal isZero anyOne
  generalize fieldE f w = E
  generalize fieldF f w = F
  simp only [Bool.and_eq_true, Bool.not_eq_true', allOnes_iff, allZeros_iff, Bool.eq_false_iff, Ne, allZeros_iff]
  split_ifs <;> simp_all

/-- The class of a word with its fields, by its fields as numbers (R53). -/
theorem decodeWord_eq (f : FormatSpec) (w : BitVec f.N) : decodeWord f w =
    if (fieldE f w).toNat = 2 ^ f.k - 1 then
      (if (fieldF f w).toNat = 0 then .infinity (fieldS f w) else .nan (fieldS f w) (fieldF f w).toNat)
    else if (fieldE f w).toNat = 0 then
      (if (fieldF f w).toNat = 0 then .zero (fieldS f w) else .subnormal (fieldS f w) (fieldF f w).toNat)
    else .normal (fieldS f w) (fieldE f w).toNat (fieldF f w).toNat := by
  have h1 := two_le_two_pow_k f
  have hF := (fieldF f w).isLt
  have hU := Nat.two_pow_pos f.FW
  have e0 : w.toNat &&& (exponentMask f ||| fractionMask f) = (fieldE f w).toNat * 2 ^ f.FW + (fieldF f w).toNat := by
    rw [and_bothMasks, fieldE_toNat, fieldF_toNat]
  have e1 : w.toNat &&& exponentMask f = (fieldE f w).toNat * 2 ^ f.FW := by rw [and_exponentMask, fieldE_toNat]
  have c1 : (fieldE f w).toNat * 2 ^ f.FW + (fieldF f w).toNat = 0 ↔ (fieldE f w).toNat = 0 ∧ (fieldF f w).toNat = 0 := by
    simp
  have c2 : (fieldE f w).toNat * 2 ^ f.FW + (fieldF f w).toNat = exponentMask f ↔
      (fieldE f w).toNat = 2 ^ f.k - 1 ∧ (fieldF f w).toNat = 0 := by
    simpa [exponentMask, fractionUnit] using fields_unique f (E := (fieldE f w).toNat) (E' := 2 ^ f.k - 1) hF hU
  have c3 : (fieldE f w).toNat * 2 ^ f.FW = 0 ↔ (fieldE f w).toNat = 0 := by simp
  have c4 : (fieldE f w).toNat * 2 ^ f.FW = exponentMask f ↔ (fieldE f w).toNat = 2 ^ f.k - 1 := by
    simp [exponentMask, fractionUnit]
  have hs : numberS f w.toNat = fieldS f w := rfl
  have he : numberE f w.toNat = (fieldE f w).toNat := (fieldE_toNat f w).symm
  have hf : numberF f w.toNat = (fieldF f w).toNat := (fieldF_toNat f w).symm
  unfold decodeWord
  simp only [hs, he, hf, e0, e1, c1, c2, c3, c4]
  clear hs he hf e0 e1 c1 c2 c3 c4
  generalize (fieldE f w).toNat = E at *
  generalize (fieldF f w).toNat = F at *
  split_ifs <;> first | rfl | omega

/-- `uint({h, F})` (R93). -/
theorem withHiddenBit_toNat (f : FormatSpec) (h : Bool) (F : BitVec f.FW) :
    (withHiddenBit f h F).toNat = h.toNat * 2 ^ f.FW + F.toNat := by
  have hF := F.isLt
  have hp := f.p_two
  have e : 2 ^ f.p = 2 * 2 ^ f.FW := by rw [← pow_succ']; congr 1; simp only [FormatSpec.FW]; omega
  unfold withHiddenBit
  rw [BitVec.toNat_ofNat, e]
  apply Nat.mod_eq_of_lt
  cases h <;> simp only [Bool.toNat_false, Bool.toNat_true, zero_mul, one_mul] <;> omega

/-- An integer in the range of `XW = k + 1` bits is what the port `texp` reads (R11, R113). -/
theorem texpBits_toInt (f : FormatSpec) (e : Int) (h1 : -(2 : Int) ^ f.k ≤ e) (h2 : e < (2 : Int) ^ f.k) :
    (texpBits f e).toInt = e := by
  unfold texpBits
  rw [BitVec.toInt_ofInt]
  apply Int.bmod_eq_of_le
  all_goals simp only [FormatSpec.XW, pow_succ]; push_cast; omega

/-- The output ports of a word in terms of its kind (`spec/43_value.md` section 5 against R80 to R108). -/
theorem decodeOutputs_eq (f : FormatSpec) (w : BitVec f.N) : decodeOutputs f w =
    let k := kindOfWord f w
    { signBit := fieldS f w, exponent := fieldE f w, fraction := fieldF f w, kind := kindCode k
      isZero := decide (k = .zero), isSubnormal := decide (k = .subnormal), isNormal := decide (k = .normal)
      isInfinity := decide (k = .infinity), isNan := decide (k = .nan), signNeg := fieldS f w
      sig := sigPort f w (some k) (fieldF f w), sigValid := sigValidPort (some k)
      texp := texpPort f w (trueExponentOf f (some k) (fieldE f w)), valNeg := fieldS f w && !decide (k = .nan) } := by
  have h0 := not_allOnes_of_allZeros (v := fieldE f w) f.k_pos
  cases hE1 : allOnes (fieldE f w) <;> cases hE0 : allZeros (fieldE f w) <;> cases hF : allZeros (fieldF f w)
  all_goals first | (exfalso; simp_all; done) | skip
  all_goals simp [decodeOutputs, kindOfWord, kindOf, isNan, isInfinity, isSubnormal, isZero, anyOne, hE1, hE0, hF, kindBits,
    kindCode, sigPort, sigValidPort, texpPort, trueExponentOf]

/-- `Load` gives a word exactly for the accepted texts (R55, R70). -/
theorem accepted_iff_loadText (f : FormatSpec) (t : Text) : Accepted f t ↔ ∃ w, loadText f t = .ok w := by
  have hd : (∀ c ∈ t, c = '0' ∨ c = '1') ↔ (t.any fun c => !isDigit c) = false := by
    simp [isDigit, or_iff_not_imp_left]
  rcases loadText_cases f t with ⟨a, b, c⟩ | ⟨a, b⟩
  · simp only [Accepted, hd]
    simp [a, b, c]
  · simp only [Accepted, hd]
    simp [b]
    intro h
    rcases a with a | a
    · exact absurd h a
    · simpa using a

/-- A requested operation that answers changes output ports, readings and the reply, and nothing else. -/
theorem exec_operation_frame (op : Operation) (s t : State) (h : exec op.instr s = .next t) :
    ∃ out view, t = { s with out := out, view := view, reply := .results } := by
  have key : ∀ (k : Kind) (v : Value) (n : Bool), valueCase k v n s = .next t →
      ∃ out view, t = { s with out := out, view := view, reply := .results } := by
    intro k v n h
    rcases valueCase_cases k v n s with ⟨_, a⟩ | ⟨_, a⟩ | ⟨_, _, _, a⟩ <;> rw [a] at h <;> cases h <;> exact ⟨_, _, rfl⟩
  cases op <;> simp only [Operation.instr, exec] at h
  case valueZero => exact key _ _ _ h
  case valueInfinity => exact key _ _ _ h
  case valueNan => exact key _ _ _ h
  case valueSubnormal => exact key _ _ _ h
  case valueNormal => exact key _ _ _ h
  all_goals cases h; exact ⟨_, _, rfl⟩

/-- One step of a system of blocks: the block at the place steps, or there is none. -/
theorem System.stepAt_next (sys sys' : System) (i : Nat) (h : System.stepAt i sys = .next sys') :
    (sys[i]? = none ∧ sys' = sys) ∨ ∃ s t, sys[i]? = some s ∧ step s = .next t ∧ sys' = sys.set i t := by
  unfold System.stepAt at h
  cases h1 : sys[i]? with
  | none => rw [h1] at h; cases h; exact .inl ⟨rfl, rfl⟩
  | some s =>
    rw [h1] at h
    cases h2 : step s with
    | next t => simp only [h2] at h; cases h; exact .inr ⟨s, t, rfl, h2, rfl⟩
    | fault r => simp only [h2] at h; cases h
    | refused r => simp only [h2] at h; cases h

end Sys2Proof.Machine
end

