-- ==== Sys2Proof/Tests/Slice0.lean ====
section
/-! SUPPORT. Tests of single operations and decodings. Every expected result is taken from `spec/95_test_vectors.md` (the row's name is in the
comment) or from a rule's own example; the last part shows, for every statement with hypotheses, a state and operands that meet them. -/

namespace Sys2Proof.Tests

open Sys2Proof Sys2Proof.Machine

set_option Elab.async false

/-! ## Helpers -/

/-- The spec's small format `(2, 3, 1)` of rows T0 to T31. -/
def tiny : FormatSpec := ⟨2, 3, 1, by decide, by decide, by decide⟩

/-- The spec's format `(1, 2, 0)` without a normal word, rows U0 to U7. -/
def oneBit : FormatSpec := ⟨1, 2, 0, by decide, by decide, by decide⟩

/-- The Float16 layout with another bias, rows TB1 to TB24. -/
def float16Bias (b : Int) (h : 0 ≤ b ∧ b < ((2 ^ 5 : Nat) : Int)) : FormatSpec := ⟨5, 11, b, by decide, by decide, h⟩

/-- A block just built. -/
def block (f : FormatSpec) : State := State.built f '_'

/-- A block with the given values on the ports that the operations after PARTITION and CLASSIFY read. -/
def ports (f : FormatSpec) (S : Bool) (E F : Nat) (code : BitVec 3) : State :=
  { block f with
    out := { Outputs.ofZeroWord f with signBit := S, exponent := BitVec.ofNat _ E, fraction := BitVec.ofNat _ F, kind := code } }

/-- A block with one input waiting. -/
def waiting (f : FormatSpec) (x : Stimulus f) : State := { block f with inputs := [x] }

/-- A reading of the next state, if there is one. -/
def after (a : Answer) (g : State → α) : Option α :=
  match a with
  | .next t => some (g t)
  | .fault _ => none
  | .refused _ => none

/-- The number of the word `Load` gives. -/
def loaded (f : FormatSpec) (s : String) : Option Nat :=
  match loadText f s.toList with
  | .ok w => some w.toNat
  | .error _ => none

/-- Whether a meaning refuses a term as no word of its class. -/
def refusesClass (a : Answer) : Bool :=
  match a with
  | .refused .noWordOfItsClass => true
  | .refused _ => false
  | .next _ => false
  | .fault _ => false

/-! ## Decoding: words written out bit by bit -/

/-- H1, H2, H4, H7, and the first words of infinity and nan (R80, R81) for Float16. -/
theorem test_decode_float16 :
    [0b0000000000000000#16, 0b0000000000000001#16, 0b0000010000000000#16, 0b0111101111111111#16, 0b0111110000000000#16,
      0b0111110000000001#16].map (decodeWord .float16) =
      [.zero false, .subnormal false 1, .normal false 1 0, .normal false 30 0x3FF, .infinity false, .nan false 1] := by
  decide +kernel

/-- PT7, PT8, FV8, FV10 and PR3 step 11, BFloat16. -/
theorem test_decode_bfloat16 :
    [0b1010010110100101#16, 0b1000000000000000#16, 0b0100000001001001#16, 0b1111111110000001#16, 0b0111111110000000#16].map
        (decodeWord .bfloat16) =
      [.normal true 75 0x25, .zero true, .normal false 128 73, .nan true 1, .infinity false] := by
  decide +kernel

/-- S1, S2, S5, S7, S8, Float32. -/
theorem test_decode_float32 :
    [0x00000001#32, 0b01000100100110100100111010011101#32, 0x80000000#32, 0b11111111100000000000000000000000#32,
      0b01111111110000000000000000000000#32].map (decodeWord .float32) =
      [.subnormal false 1, .normal false 137 1724061, .zero true, .infinity true, .nan false 0x400000] := by
  decide +kernel

/-- PR5 steps 5 and 7, and PT24, Float64. -/
theorem test_decode_float64 :
    [0x7FEFFFFFFFFFFFFF#64, 0xFFF8000000000000#64, 0x0000000000000001#64].map (decodeWord .float64) =
      [.normal false 2046 0xFFFFFFFFFFFFF, .nan true 0x8000000000000, .subnormal false 1] := by
  decide +kernel

/-- PT25, Float128. -/
theorem test_decode_float128 :
    decodeWord .float128 0xA5A5A5A5A5A5A5A5A5A5A5A5A5A5A5A5#128 = .normal true 9637 0xA5A5A5A5A5A5A5A5A5A5A5A5A5A5 := by
  decide +kernel

/-- O6 and O7, Float256. -/
theorem test_decode_float256 :
    decodeWord .float256 (BitVec.ofNat _ 0x7FFFF00000000000000000000000000000000000000000000000000000000000) = .infinity false ∧
    decodeWord .float256 (BitVec.ofNat _ 0x7FFFF00000000000000000000000000000000000000000000000000000000001) = .nan false 1 := by
  decide +kernel

/-- U0 to U7: with a one-bit exponent no word is normal. -/
theorem test_decode_one_exponent_bit :
    (List.range 8).map (fun n => decodeWord oneBit (BitVec.ofNat _ n)) =
      [.zero false, .subnormal false 1, .infinity false, .nan false 1, .zero true, .subnormal true 1, .infinity true, .nan true 1] := by
  decide +kernel

/-- A normal word's encoding written out from the table: digit 1, exponent 01110, fraction 0000000000 (FV2). -/
theorem test_encode_normal :
    (encode .float16 (.normal true 14 0)).map BitVec.toNat = some 0b1011100000000000 := by decide +kernel

/-- A host's bytes, either way round (R44), and the rejections by name. -/
theorem test_decode_bytes :
    (match decodeBytes .float16 .bigEndian [0x3C#8, 0x01#8] with | .ok i => some i | .error _ => none) = some (.normal false 15 1) ∧
    (match decodeBytes .float16 .littleEndian [0x01#8, 0x3C#8] with | .ok i => some i | .error _ => none) = some (.normal false 15 1) ∧
    (match decodeBytes .float16 .bigEndian [0x3C#8] with | .ok _ => none | .error e => some e) = some .wrongByteCount ∧
    (match decodeBytes tiny .bigEndian [0x20#8] with | .ok _ => none | .error e => some e) = some .bitsAboveTheWord := by
  decide +kernel

/-- L1 and L3 through the text decoder. -/
theorem test_decode_text :
    (match decodeText .float16 "0011110000000000".toList with | .ok i => some i | .error _ => none) = some (.normal false 15 0) ∧
    (match decodeText .float16 "001111000000000".toList with | .ok _ => none | .error e => some e) = some .formatError := by
  decide +kernel

/-- The host's rows: Float32 `0x3F800000` is a normal word, and no 16-bit word has 17 bits. -/
theorem test_decode_table_word :
    decodeTableWord 32 0x3F800000 = some (.normal false 127 0) ∧ decodeTableWord 16 0x10000 = none := by decide +kernel

/-- The table's word is the next instruction of step, on the row's own width. -/
theorem test_with_fetch_word :
    after (step (State.reset.withFetchWord 32 0x7F800000)) (fun t => (t.out.kind, t.inputs.length)) = some (3#3, 0) ∧
    after (step (State.reset.withFetchWord 16 0x7C01)) (fun t => (t.out.kind, t.fmt.N)) = some (4#3, 16) := by decide +kernel

/-! ## Well-formedness: an ill-formed term for each check -/

theorem test_wf_subnormal_fraction_zero : (Instr.subnormal false 0).wellFormed .float16 = false := by decide +kernel
theorem test_wf_subnormal_fraction_wide : (Instr.subnormal false 1024).wellFormed .float16 = false := by decide +kernel
theorem test_wf_nan_fraction_zero : (Instr.nan true 0).wellFormed .float16 = false := by decide +kernel
theorem test_wf_nan_fraction_wide : (Instr.nan true 1024).wellFormed .float16 = false := by decide +kernel
theorem test_wf_normal_exponent_zero : (Instr.normal false 0 5).wellFormed .float16 = false := by decide +kernel
theorem test_wf_normal_exponent_ones : (Instr.normal false 31 5).wellFormed .float16 = false := by decide +kernel
theorem test_wf_normal_fraction_wide : (Instr.normal false 30 1024).wellFormed .float16 = false := by decide +kernel

/-- The check accepts the extreme fields. -/
theorem test_wf_accepts_the_extremes :
    [Instr.zero true, .infinity true, .subnormal true 1023, .nan true 1, .normal true 30 1023, .normal false 1 0].all
      (Instr.wellFormed .float16) = true := by decide +kernel

/-! ## LOAD and PARTITION -/

/-- L1 and L13 to L18. -/
theorem test_load_accepts :
    ["0011110000000000", "1000000000000000", "0000000000000001", "0100000000000000", "0000010000000000", "0000001000000000",
      "0011111110000000"].map (loaded .float16) =
      [some 0x3C00, some 0x8000, some 0x0001, some 0x4000, some 0x0400, some 0x0200, some 0x3F80] := by decide +kernel

/-- L2 to L12 and L19. -/
theorem test_load_refuses :
    ["", "001111000000000", "00111100000000000", "0 01111 0000000000", "0_01111_00000000", "0 01111000000000", "0011110000000002",
      "001111000000000０", "0b01111000000000", "-011110000000000", "0011110000000000\n", "00111111100000000000000000000000"].all
      (fun s => loaded .float16 s == none) = true := by decide +kernel

/-- CL1, CL4, CL5, CL6, CL7. -/
theorem test_clean :
    ["0 01111 0000000000", " 0011 1100 0000 0000 ", "0\t01111\t0000000000", "__ __", "0 01111 000000000"].map
      (fun s => loaded .float16 (String.ofList (clean s.toList))) = [some 0x3C00, some 0x3C00, none, none, none] := by decide +kernel

/-- PT1 and PT7: the same word, two layouts. -/
theorem test_partition :
    after (exec .partition { block .float16 with w := 0xA5A5#16 }) (fun t => (t.out.signBit, t.out.exponent.toNat, t.out.fraction.toNat)) =
      some (true, 9, 0x1A5) ∧
    after (exec .partition { block .bfloat16 with w := 0xA5A5#16 }) (fun t => (t.out.signBit, t.out.exponent.toNat, t.out.fraction.toNat)) =
      some (true, 75, 0x25) := by decide +kernel

/-! ## CLASSIFY -/

/-- R88: Float16 `0x7C01` gives `is_nan = 1`, the other four 0, `kind = 4`. -/
theorem test_classify_nan :
    after (exec .classify (ports .float16 false 31 1 0#3))
      (fun t => (t.out.kind, t.out.isNan, t.out.isInfinity, t.out.isSubnormal, t.out.isZero, t.out.isNormal)) =
      some (4#3, true, false, false, false, false) := by decide +kernel

/-- The boundaries of R84: exponents 0, 1, 30 and 31 with fraction 0 in Float16. -/
theorem test_classify_boundaries :
    [0, 1, 30, 31].map (fun E => after (exec .classify (ports .float16 true E 0 4#3)) (fun t => (t.out.kind, t.view.kind))) =
      [some (0#3, Kind.zero), some (2#3, Kind.normal), some (2#3, Kind.normal), some (3#3, Kind.infinity)] := by decide +kernel

/-! ## The word classes -/

/-- S5: the negative zero. -/
theorem test_zero :
    after (exec (.zero true) (block .float32)) (fun t => (t.w.toNat, t.out.valNeg, t.view.value)) =
      some (0x80000000, true, Value.zero true) := by decide +kernel

/-- S7: minus infinity. -/
theorem test_infinity :
    after (exec (.infinity true) (block .float32)) (fun t => (t.w.toNat, t.out.kind, t.view.value)) =
      some (0xFF800000, 3#3, Value.inf true) := by decide +kernel

/-- S1: the least subnormal, scale -126, hidden bit 0. -/
theorem test_subnormal :
    after (exec (.subnormal false 1) (block .float32)) (fun t => (t.out.texp.toInt, t.out.sig.toNat, t.view.value)) =
      some (-126, 1, Value.fin (mkRat 1 (2 ^ 149))) := by decide +kernel

/-- R108: Float16 `0xFE00`, a nan with `S = 1`: `sign_neg = 1`, `val_neg = 0`. -/
theorem test_nan :
    after (exec (.nan true 0x200) (block .float16)) (fun t => (t.w.toNat, t.out.signNeg, t.out.valNeg, t.view.value)) =
      some (0xFE00, true, false, Value.nan) := by decide +kernel

/-- S2: `10112669/8192`, scale 10, `sig = 0x9A4E9D`. -/
theorem test_normal :
    after (exec (.normal false 137 0x1A4E9D) (block .float32)) (fun t => (t.out.texp.toInt, t.out.sig.toNat, t.view.value)) =
      some (10, 0x9A4E9D, Value.fin (mkRat 10112669 8192)) := by decide +kernel

/-- Fields that no word of the class has are refused by name. -/
theorem test_no_word_of_its_class :
    [Instr.subnormal false 0, .nan true 0, .normal false 0 0, .normal false 31 0].all
      (fun i => refusesClass (exec i (block .float16))) = true := by decide +kernel

/-! ## The field values -/

/-- R90: Float32 `0x80000000` gives `sign = -1`, `sign_neg = 1`. -/
theorem test_sign :
    after (exec .sign (ports .float32 true 0 0 0#3)) (fun t => (t.view.sign, t.out.signNeg)) = some (-1, true) := by decide +kernel

/-- R91: `10001001` is 137. -/
theorem test_exponent :
    after (exec .exponent (ports .float32 false 0b10001001 0 2#3)) (fun t => t.view.exponent) = some 137 := by decide +kernel

/-- R92: Float32's `00110100100111010011101` is `1724061/8388608`. -/
theorem test_fraction :
    after (exec .fraction (ports .float32 false 137 0b00110100100111010011101 2#3)) (fun t => t.view.fraction) =
      some (mkRat 1724061 8388608) := by decide +kernel

/-- FV4: no hidden one in a subnormal significand. -/
theorem test_significand_subnormal :
    after (exec .significand (ports .float16 true 0 0x3FF 1#3)) (fun t => (t.out.sig.toNat, t.out.sigValid, t.view.significand)) =
      some (0x3FF, true, some (mkRat 1023 1024)) := by decide +kernel

/-- FV1 and FV6: `1365/1024`, and the sentinel of a nan word. -/
theorem test_significand_normal_and_sentinel :
    after (exec .significand (ports .float16 false 13 341 2#3)) (fun t => t.view.significand) = some (some (mkRat 1365 1024)) ∧
    after (exec .significand (ports .float16 true 31 0x200 4#3)) (fun t => (t.out.sigValid, t.view.significand)) =
      some (false, none) := by decide +kernel

/-! ## The bias arithmetic and the value -/

/-- TB4 and TB21: the two ends of the admitted bias, both inside the 6-bit port. -/
theorem test_texp_extreme_biases :
    after (exec .texp (ports (float16Bias 0 (by decide)) false 30 0x3FF 2#3)) (fun t => (t.out.texp.toNat, t.out.texp.toInt)) =
      some (0b011110, 30) ∧
    after (exec .texp (ports (float16Bias 31 (by decide)) false 0 1 1#3)) (fun t => (t.out.texp.toNat, t.out.texp.toInt)) =
      some (0b100010, -30) := by decide +kernel

/-- R100: zero, infinity and nan have no true exponent. -/
theorem test_texp_not_applicable :
    [0#3, 3#3, 4#3].map (fun c => after (exec .texp (ports .float16 false 31 0 c)) (fun t => t.view.trueExponent)) =
      [some none, some none, some none] := by decide +kernel

/-- R101. -/
theorem test_value_zero :
    after (exec .valueZero (ports .float32 true 0 0 0#3)) (fun t => (t.view.value, t.out.valNeg)) = some (Value.zero true, true) := by
  decide +kernel

/-- R102. -/
theorem test_value_infinity :
    after (exec .valueInfinity (ports .float32 true 255 0 3#3)) (fun t => (t.view.value, t.out.valNeg)) = some (Value.inf true, true) := by
  decide +kernel

/-- R103: Float32 `0xFFC00000`. -/
theorem test_value_nan :
    after (exec .valueNan (ports .float32 true 255 0x400000 4#3)) (fun t => (t.view.value, t.out.valNeg)) = some (Value.nan, false) := by
  decide +kernel

/-- TB1: with bias 0 the subnormal scale is `2^1`. -/
theorem test_value_subnormal :
    after (exec .valueSubnormal (ports (float16Bias 0 (by decide)) false 0 1 1#3)) (fun t => t.view.value) =
      some (Value.fin (mkRat 1 512)) := by decide +kernel

/-- FV12: Float32 `0xC2F6E979` is `-16181625/131072`. -/
theorem test_value_normal :
    after (exec .valueNormal (ports .float32 true 133 7793017 2#3)) (fun t => (t.view.value, t.out.valNeg)) =
      some (Value.fin (mkRat (-16181625) 131072), true) := by decide +kernel

/-- VR6 to VR8: a sixth kind is an InternalError in every case of the resolver. -/
theorem test_value_sixth_kind :
    [5#3, 6#3, 7#3].all (fun c => [Instr.valueZero, .valueInfinity, .valueNan, .valueSubnormal, .valueNormal].all fun i =>
      match exec i (ports .float16 false 0 0 c) with
      | .fault (.internalError c') => c == c'
      | .next _ => false
      | .refused _ => false) = true := by decide +kernel

/-- VR1 to VR5, and VR6 to VR8 on the four ports. -/
theorem test_denote :
    (match denote .float32 0#3 true 0#_ 0#_ with | .ok v => some v | .error _ => none) = some (.zero true) ∧
    (match denote .float32 1#3 false (BitVec.ofInt _ (-126)) 1#_ with | .ok v => some v | .error _ => none) =
      some (.fin (mkRat 1 (2 ^ 149))) ∧
    (match denote .float16 2#3 true 1#_ 0x400#_ with | .ok v => some v | .error _ => none) = some (.fin (-2)) ∧
    (match denote .float16 3#3 false 0#_ 0#_ with | .ok v => some v | .error _ => none) = some (.inf false) ∧
    (match denote .float16 4#3 true 0#_ 0#_ with | .ok v => some v | .error _ => none) = some .nan ∧
    (match denote .float16 6#3 true 0#_ 0#_ with | .ok v => some v | .error _ => none) = none := by decide +kernel

/-- EQ1, EQ2, EQ5, EQ6, EQ7, EQ9. -/
theorem test_equality :
    [feq .nan .nan, feq (.zero false) (.zero true), feq (.inf false) (.inf true), feq (.fin 1) (.fin 1), feq (.fin 1) (.fin (-1)),
      feq (.zero false) (.fin (mkRat 1 (2 ^ 149)))] = [false, true, false, true, false, false] := by decide +kernel

/-! ## The presentation views -/

/-- SB6, and the separator as a parameter (R120's second spelling). -/
theorem test_strbits :
    after (exec .strbits (ports .float32 false 0x89 0x1A4E9D 2#3)) (fun t => t.view.strBits) =
      some "0_10001001_00110100100111010011101".toList ∧
    after (exec .strbits { ports .float32 false 0x89 0x1A4E9D 2#3 with sep := ' ' }) (fun t => t.view.strBits) =
      some "0 10001001 00110100100111010011101".toList := by decide +kernel

/-- SM2: Float16 `0x8001`. -/
theorem test_summary :
    after (exec .summary ((block .float16).drive 0x8001#16)) (fun t => t.view.summary) =
      some [(.value, .value (.fin (mkRat (-1) (2 ^ 24)))), (.kind, .kind .subnormal), (.k, .natural 5), (.p, .natural 11),
        (.bias, .integer 15), (.strBits, .text "1_00000_0000000001".toList), (.sign, .integer (-1)), (.exponent, .natural 0),
        (.fraction, .rational (mkRat 1 1024)), (.significand, .rational (mkRat 1 1024))] := by decide +kernel

/-! ## Whole steps -/

/-- PR3 steps 1 and 4: `Load("0100001001001000")` on Float16 is `201/64`; 15 digits are refused and nothing else changes. -/
theorem test_step_load :
    after (step (waiting .float16 (.text "0100001001001000".toList))) (fun t => (t.w.toNat, t.out.texp.toInt, t.view.value, t.inputs.length)) =
      some (0x4248, 1, Value.fin (mkRat 201 64), 0) ∧
    after (step (waiting .float16 (.text "010000100100100".toList))) (fun t => (t.reply, t.w.toNat, t.out.kind)) =
      some (Reply.error .formatError, 0, 0#3) := by decide +kernel

/-- TB8 and T27: a driven word with another bias, and one of the smallest formats. -/
theorem test_step_word :
    after (step (waiting (float16Bias 1 (by decide)) (.word 0x7BFF#16))) (fun t => (t.out.texp.toInt, t.view.value)) =
      some (29, Value.fin 1073217536) ∧
    after (step (waiting tiny (.word 0x1B#5))) (fun t => t.view.value) = some (Value.fin (mkRat (-7) 2)) := by decide +kernel

/-! ## Witnesses: each statement's hypotheses are met, at the ends of their ranges -/

/-- The 32 digits of Float32's 1 (S3). -/
def oneText : Text := List.replicate 2 '0' ++ List.replicate 7 '1' ++ List.replicate 23 '0'

theorem witness_StepRunsTheDecodedInstruction :
    State.reset.inputs = [] ∧ (waiting .float32 (.text oneText)).inputs = .text oneText :: [] ∧
    (waiting .float32 (.word 1#32)).inputs = .word 1#32 :: [] ∧
    (waiting .float32 (.request .classify)).inputs = .request .classify :: [] := by decide +kernel

theorem witness_DecodeOfEncodeIsTheInstruction :
    [Instr.zero true, .infinity false, .subnormal false 1, .subnormal true 1023, .nan true 1, .nan false 1023, .normal false 1 0,
      .normal true 30 1023].all (fun i => i.wellFormed .float16 && (wordNumber .float16 i).isSome) = true := by decide +kernel

theorem witness_MaskedPatternsSelectTheClassifiersKind : oneBit.k = 1 := rfl

theorem witness_FieldsTileTheWord :
    0 < oneBit.k ∧ 1 ≤ oneBit.p - 1 ∧ (4 < FormatSpec.float16.k ∧ 1 ≤ 10 ∧ 10 ≤ FormatSpec.float16.p - 1) := by decide

theorem oneText_accepted : Accepted .float32 oneText := by
  refine ⟨rfl, fun c hc => ?_⟩
  simp only [oneText, List.mem_append, List.mem_replicate] at hc
  rcases hc with (⟨_, h⟩ | ⟨_, h⟩) | ⟨_, h⟩
  · exact .inl h
  · exact .inr h
  · exact .inl h

theorem witness_LoadDeliversTheWordOfAnAcceptedText : Accepted (block .float32).fmt oneText := oneText_accepted

theorem witness_BadTextTakesFormatError :
    ("".toList.length ≠ (block oneBit).fmt.N) ∧ ("0000".toList.length ≠ (block oneBit).fmt.N) ∧
    (∃ c ∈ "0 1".toList, c ≠ '0' ∧ c ≠ '1') :=
  ⟨by decide +kernel, by decide +kernel, ' ', by simp, by decide, by decide⟩

theorem witness_RefusedTextLeavesNoTrace :
    ¬ Accepted oneBit "01".toList ∧
    ({ block oneBit with inputs := [.text "01".toList, .word 7#3] } : State).inputs = .text "01".toList :: .word 7#3 :: [] := by
  refine ⟨fun h => absurd h.1 (by decide +kernel), rfl⟩

theorem witness_RefusalFailsIdenticallyOnEveryRetry :
    (float16Bias 0 (by decide)).k = FormatSpec.float16.k ∧ (float16Bias 0 (by decide)).p = FormatSpec.float16.p ∧
    Accepted .float32 oneText := ⟨rfl, rfl, oneText_accepted⟩

theorem witness_TextAndWordEntryPointsAgree :
    (match loadText oneBit "101".toList with | .ok w => some w.toNat | .error _ => none) = some 5 := by decide +kernel

theorem witness_PartitionDrivesTheFieldPorts : 0 < (block oneBit).fmt.k ∧ 0 < (block oneBit).fmt.p - 1 := by decide

theorem witness_ClassifyFollowsTheFiveConditions :
    ((ports tiny true 3 1 0#3).out.exponent.toNat = 2 ^ 2 - 1 ∧ (ports tiny true 3 1 0#3).out.fraction.toNat ≠ 0) ∧
    ((ports tiny true 3 0 0#3).out.exponent.toNat = 2 ^ 2 - 1 ∧ (ports tiny true 3 0 0#3).out.fraction.toNat = 0) ∧
    ((ports tiny true 0 1 0#3).out.exponent.toNat = 0 ∧ (ports tiny true 0 1 0#3).out.fraction.toNat ≠ 0) ∧
    ((ports tiny true 0 0 0#3).out.exponent.toNat = 0 ∧ (ports tiny true 0 0 0#3).out.fraction.toNat = 0) ∧
    (1 ≤ (ports tiny true 1 0 0#3).out.exponent.toNat ∧ (ports tiny true 2 3 0#3).out.exponent.toNat ≤ 2 ^ 2 - 2) := by
  decide +kernel

theorem witness_SignAndBiasTakeNoPartInTheKind :
    (∀ i, i < tiny.N - 1 → (0x0D#5).getLsbD i = (0x1D#5).getLsbD i) ∧
    ((0 : Int) ≤ 0 ∧ (0 : Int) < ((2 ^ tiny.k : Nat) : Int)) ∧ ((0 : Int) ≤ 3 ∧ (3 : Int) < ((2 ^ tiny.k : Nat) : Int)) := by
  decide

/-- Least and greatest fraction of a subnormal or nan word, and the two refused sides. -/
theorem witness_SubnormalWordHasNoHiddenBit :
    (1 ≠ 0 ∧ 1 < 2 ^ ((block tiny).fmt.p - 1)) ∧ (3 ≠ 0 ∧ 3 < 2 ^ ((block tiny).fmt.p - 1)) := by decide

theorem witness_NanWordCollapsesToTheUnsignedNan :
    (1 ≠ 0 ∧ 1 < 2 ^ ((block oneBit).fmt.p - 1)) ∧ (3 ≠ 0 ∧ 3 < 2 ^ ((block tiny).fmt.p - 1)) := by decide

theorem witness_NormalWordHasTheHiddenBit :
    (1 ≤ 1 ∧ 1 + 2 ≤ 2 ^ (block tiny).fmt.k ∧ 0 < 2 ^ ((block tiny).fmt.p - 1)) ∧
    (1 ≤ 2 ∧ 2 + 2 ≤ 2 ^ (block tiny).fmt.k ∧ 3 < 2 ^ ((block tiny).fmt.p - 1)) := by decide

theorem witness_FieldsOfNoWordAreRefused :
    2 ^ ((block tiny).fmt.p - 1) ≤ 4 ∧ 2 ^ (block tiny).fmt.k ≤ 3 + 1 ∧ (0 = 0 ∨ 2 ^ ((block tiny).fmt.p - 1) ≤ 0) := by decide

theorem witness_TableRowsAgreeWithTheDecodeListing :
    (encode (block tiny).fmt (.normal true 2 3)).map BitVec.toNat = some 0x1B := by decide +kernel

theorem witness_SignificandPrependsTheHiddenBit :
    (ports tiny false 1 0 2#3).out.kind = (if true then 2#3 else 1#3) ∧
    (ports tiny false 0 3 1#3).out.kind = (if false then 2#3 else 1#3) ∧ (ports tiny false 0 3 1#3).out.fraction.toNat ≠ 0 := by
  decide +kernel

theorem witness_SignificandIsNotApplicableOutsideFiniteNonzero :
    [0#3, 3#3, 4#3, 5#3, 7#3].all (fun c => (ports tiny false 0 0 c).out.kind != 1#3 && (ports tiny false 0 0 c).out.kind != 2#3) =
      true := by decide +kernel

theorem witness_SigValidMarksTheFiniteNonzeroWords :
    (decodeOutputs tiny 0x01#5).sigValid = true ∧ (decodeOutputs tiny 0x0B#5).sigValid = true := by decide +kernel

theorem witness_TexpIsTheTrueExponentWithoutWrapping :
    (ports tiny false 2 0 2#3).out.kind = 2#3 ∧ (1 : Int) = ((ports tiny false 2 0 2#3).out.exponent.toNat : Int) - tiny.bias ∧
    (ports tiny false 0 1 1#3).out.kind = 1#3 ∧ (0 : Int) = 1 - tiny.bias := by decide +kernel

theorem witness_TexpIsNotApplicableOutsideFiniteNonzero :
    [0#3, 3#3, 4#3, 5#3, 7#3].all (fun c => (ports tiny false 3 0 c).out.kind != 1#3 && (ports tiny false 3 0 c).out.kind != 2#3) =
      true := by decide +kernel

theorem witness_TrueExponentStaysInItsRange :
    ((decodeOutputs tiny 0x01#5).sigValid = true ∧ kindOfWord tiny 0x01#5 = .subnormal) ∧
    ((decodeOutputs tiny 0x0B#5).sigValid = true ∧ kindOfWord tiny 0x0B#5 = .normal) := by decide +kernel

theorem witness_ValueOfTheNonfiniteKindsAndZero :
    (ports tiny true 0 0 0#3).out.kind = 0#3 ∧ (ports tiny true 3 0 3#3).out.kind = 3#3 ∧ (ports tiny true 3 1 4#3).out.kind = 4#3 := by
  decide +kernel

theorem witness_ValueSubnormalScalesTheFraction : (ports tiny true 0 1 1#3).out.kind = 1#3 := rfl

theorem witness_ValueNormalScalesTheSignificand : (ports tiny true 1 0 2#3).out.kind = 2#3 := rfl

theorem witness_UnselectedValueCaseChangesNothing :
    (Instr.valueNan, Kind.nan) ∈ [(Instr.valueZero, Kind.zero), (.valueInfinity, .infinity), (.valueNan, .nan),
      (.valueSubnormal, .subnormal), (.valueNormal, .normal)] ∧
    (ports tiny true 3 0 3#3).out.kind ≠ kindCode .nan ∧ (ports tiny true 3 0 3#3).out.kind.toNat ≤ 4 := by decide +kernel

theorem witness_ValueOnASixthKindIsInternalError :
    Instr.valueNormal ∈ [Instr.valueZero, .valueInfinity, .valueNan, .valueSubnormal, .valueNormal] ∧
    5 ≤ (ports tiny true 0 0 5#3).out.kind.toNat ∧ 5 ≤ (7#3).toNat := by decide +kernel

theorem witness_ValuePortsDenoteTheValue : valueOfWord tiny 0x17#5 = .fin (mkRat (-7) 4) := by decide +kernel

theorem witness_FiniteValueHasItsIntegerForm :
    ((decodeOutputs tiny 0x01#5).sigValid = true ∧ (decodeOutputs tiny 0x01#5).isSubnormal = true) ∧
    ((decodeOutputs tiny 0x04#5).sigValid = true ∧ (decodeOutputs tiny 0x04#5).isNormal = true) := by decide +kernel

/-- From `+0` to `+infinity`, and across the step from the greatest subnormal to the least normal. -/
theorem witness_MagnitudeIsMonotonicInTheWord :
    [((0x00#5 : BitVec 5), (0x0C#5 : BitVec 5)), (0x03#5, 0x04#5)].all (fun (w1, w2) =>
      !fieldS tiny w1 && !fieldS tiny w2 && kindOfWord tiny w1 != .nan && kindOfWord tiny w2 != .nan && decide (w1.toNat < w2.toNat)) =
      true := by decide +kernel

theorem witness_FiniteMagnitudesStayBetweenTheirExtremes :
    (valueOfWord tiny 0x01#5 = .fin (mkRat 1 4) ∧ kindOfWord tiny 0x01#5 = .subnormal) ∧
    (valueOfWord tiny 0x03#5 = .fin (mkRat 3 4) ∧ kindOfWord tiny 0x03#5 = .subnormal) ∧
    (valueOfWord tiny 0x04#5 = .fin 1 ∧ kindOfWord tiny 0x04#5 = .normal) ∧
    (valueOfWord tiny 0x0B#5 = .fin (mkRat 7 2) ∧ kindOfWord tiny 0x0B#5 = .normal) := by decide +kernel

theorem witness_StrbitsGroupsTheDigits : 0 < (block oneBit).fmt.k ∧ 0 < (block oneBit).fmt.p - 1 := by decide

theorem witness_StrbitsReproducesTheText :
    (match loadText tiny "01101".toList with | .ok w => some w.toNat | .error _ => none) = some 0x0D ∧
    (Config.defaultSep = ' ' ∨ Config.defaultSep = '_') := by decide +kernel

theorem witness_SummaryHasTheTenEntries :
    (block tiny).view.significand = none ∧ ((block tiny).drive 0x01#5).view.significand = some (mkRat 1 4) := by decide +kernel

theorem witness_CleanDeletesTheSeparatorsOnly : 'x' ≠ ' ' ∧ 'x' ≠ '_' := by decide

/-- A settled state; the statements about settled states and their steps all start from one. -/
theorem witness_Settled : (block tiny).Settled ∧ (waiting tiny (.word 0x1F#5)).Settled := by decide +kernel

theorem witness_EveryStepKeepsTheOutputsSettled :
    (waiting tiny (.word 0x1F#5)).Settled ∧ ∃ t, step (waiting tiny (.word 0x1F#5)) = .next t :=
  ⟨witness_Settled.2, _, rfl⟩

theorem witness_NoSettledStateStops : (waiting tiny (.request .valueNan)).Settled := by decide +kernel

theorem witness_RunsOfEveryLengthAreSafe : State.reset.Settled := by decide +kernel

theorem witness_ConfigurationNeverChanges : ∃ t, step (waiting oneBit (.text "101".toList)) = .next t := ⟨_, rfl⟩

theorem witness_AnswersDoNotDependOnEarlierInputs : Accepted (waiting .float32 (.text oneText)).fmt oneText := oneText_accepted

theorem witness_OperationsRepeatASettledBlock : ((block tiny).drive 0x1D#5).Settled := by decide +kernel

/-- The ends of the admitted ranges, and a triple past each. -/
theorem witness_BuildAdmitsExactlyTheRanges :
    (1 ≤ 1 ∧ 2 ≤ 2 ∧ (0 : Int) ≤ 0 ∧ (0 : Int) ≤ (2 : Int) ^ 1 - 1) ∧ (1 ≤ 5 ∧ 2 ≤ 11 ∧ (0 : Int) ≤ 31 ∧ (31 : Int) ≤ (2 : Int) ^ 5 - 1) ∧
    (0 < 1 ∧ 1 < 2 ∧ (-1 : Int) < 0 ∧ (2 : Int) ^ 5 - 1 < 32) := by decide

theorem witness_PresetsAreConsistent :
    FormatSpec.float256 ∈ [FormatSpec.float16, .bfloat16, .float32, .float64, .float128, .float256] := by decide

theorem witness_BlocksDoNotInteract :
    (0 : Nat) ≠ 1 ∧ (∃ a, System.stepAt 0 [block tiny, block oneBit] = .next a) ∧
    (∃ b, System.stepAt 1 [block tiny, block oneBit] = .next b) := ⟨by decide, ⟨_, rfl⟩, ⟨_, rfl⟩⟩

end Sys2Proof.Tests
end

section
/-! Proofs of the scope's statements: which triples an FPCD is built from (R7 to R9), and the presets (R12). -/

namespace Sys2Proof.Proofs.Scope

open Sys2Proof Sys2Proof.Machine

/-- The upper end of the bias as R9 writes it, and as `FormatSpec` holds it. -/
theorem le_two_pow_sub_one_iff (k : Nat) (bias : Int) : bias ≤ (2 : Int) ^ k - 1 ↔ bias < ((2 ^ k : Nat) : Int) := by
  rw [Int.le_sub_one_iff, Nat.cast_pow, Nat.cast_ofNat]

/-- An admitted triple builds the FPCD of its own FormatSpec. -/
theorem build_eq_next {k p : Nat} {bias : Int} (sep : Char) (hk : 1 ≤ k) (hp : 2 ≤ p) (hb : 0 ≤ bias)
    (hb' : bias < ((2 ^ k : Nat) : Int)) :
    State.build k p bias sep = .next (State.built ⟨k, p, bias, hk, hp, hb, hb'⟩ sep) := by
  have hf : FormatSpec.build k p bias = some ⟨k, p, bias, hk, hp, hb, hb'⟩ := dif_pos ⟨hk, hp, hb, hb'⟩
  rw [State.build, hf]

/-- A triple with one part outside its range is refused. -/
theorem build_eq_refused {k p : Nat} {bias : Int} (sep : Char)
    (h : ¬(1 ≤ k ∧ 2 ≤ p ∧ 0 ≤ bias ∧ bias < ((2 ^ k : Nat) : Int))) :
    State.build k p bias sep = .refused .formatSpecNotAdmitted := by
  rw [State.build, FormatSpec.build_eq_none.mpr h]

/-- Settles O58: both ends of each range are the ones `FormatSpec.build` tests, the upper end of the bias by
`le_two_pow_sub_one_iff`. -/
theorem buildAdmitsExactlyTheRanges : Obligations.BuildAdmitsExactlyTheRanges := by
  intro k p bias sep
  constructor
  · intro hk hp hb hb'
    exact ⟨_, build_eq_next sep hk hp hb ((le_two_pow_sub_one_iff k bias).mp hb'), rfl, rfl, rfl, rfl, rfl⟩
  · intro hout
    apply build_eq_refused
    rintro ⟨hk, hp, hb, hlt⟩
    have hb' := (le_two_pow_sub_one_iff k bias).mpr hlt
    omega

/-- Settles O59: the rows are computed from the presets, and the bias of each is checked by itself. -/
theorem presetsAreConsistent : Obligations.PresetsAreConsistent := by
  refine ⟨rfl, ?_⟩
  simp only [List.forall_mem_cons, List.not_mem_nil, false_imp_iff, implies_true, and_true]
  refine ⟨?float16, ?bfloat16, ?float32, ?float64, ?float128, ?float256⟩ <;> decide

end Sys2Proof.Proofs.Scope
end

section
/-! Proofs of the state's statements: the five predicates and the code on the ports of a word (R28, R85). -/

namespace Sys2Proof.Proofs.Kinds

open Sys2Proof Sys2Proof.Machine

/-- No two kinds have one code (R28): the code names its kind back. -/
theorem kindCode_inj {k k' : Kind} : kindCode k = kindCode k' ↔ k = k' := by
  constructor
  · intro h
    have hname : kindOfCode (kindCode k) = kindOfCode (kindCode k') := congrArg kindOfCode h
    simpa only [kindOfCode_kindCode, Option.some.injEq] using hname
  · exact congrArg kindCode

/-- The codes 5, 6 and 7 are the code of no kind (R28). -/
theorem kindCode_toNat_le (k : Kind) : (kindCode k).toNat ≤ 4 := by
  by_contra h
  have hnone := (kindOfCode_eq_none (kindCode k)).mpr (by omega)
  rw [kindOfCode_kindCode] at hnone
  cases hnone

/-- A kind is exactly one of the five. -/
theorem sum_decide_kind (k : Kind) :
    (decide (k = .zero)).toNat + (decide (k = .subnormal)).toNat + (decide (k = .normal)).toNat +
      (decide (k = .infinity)).toNat + (decide (k = .nan)).toNat = 1 := by
  cases k <;> rfl

/-- The predicate of a kind holds exactly on that kind's code. -/
theorem decide_kind_iff_kindCode (k k' : Kind) : decide (k = k') = true ↔ kindCode k = kindCode k' := by
  rw [decide_eq_true_iff, kindCode_inj]

/-- Settles O15: by `decodeOutputs_eq` the predicates and the code are those of one kind, the word's. -/
theorem exactlyOnePredicateHoldsForEveryWord : Obligations.ExactlyOnePredicateHoldsForEveryWord := by
  intro f w
  rw [decodeOutputs_eq]
  have hcode := decide_kind_iff_kindCode (kindOfWord f w)
  exact ⟨sum_decide_kind _, kindCode_toNat_le _, hcode .zero, hcode .subnormal, hcode .normal, hcode .infinity, hcode .nan⟩

end Sys2Proof.Proofs.Kinds
end


section
/-! Proofs of the encoding's statements: the fields tile the word (R50), every word is the encoding of its class (R54), an accepted text
is its word bit for bit (R51), and cleanup (R58). -/

namespace Sys2Proof.Proofs.Encoding

open Sys2Proof Sys2Proof.Machine
open Sys2Proof.Laws.WordFits (signUnit_eq two_pow_N)

/-! ## The fields of a word -/

/-- `uint(S)` is what stands above the other two fields. -/
theorem fieldS_toNat (f : FormatSpec) (w : BitVec f.N) : (fieldS f w).toNat = w.toNat / signUnit f := by
  have htop : w.toNat / signUnit f < 2 := by
    rw [Nat.div_lt_iff_lt_mul (show 0 < signUnit f from Nat.two_pow_pos _), signUnit_eq, ← two_pow_N]
    exact w.isLt
  calc (fieldS f w).toNat = w.toNat / signUnit f % 2 := Nat.toNat_testBit _ _
    _ = w.toNat / signUnit f := Nat.mod_eq_of_lt htop

/-- `uint(w)` is the sum of its fields, each at its weight (R50). -/
theorem fields_sum (f : FormatSpec) (w : BitVec f.N) :
    (fieldS f w).toNat * signUnit f + (fieldE f w).toNat * fractionUnit f + (fieldF f w).toNat = w.toNat := by
  have hlow : (fieldE f w).toNat * fractionUnit f + (fieldF f w).toNat = w.toNat % signUnit f := by
    rw [fieldE_toNat, fieldF_toNat, signUnit_eq, mul_comm (2 ^ f.k), Nat.mod_mul, fractionUnit]
    ring
  rw [add_assoc, hlow, fieldS_toNat, Nat.div_add_mod']

/-- `E[i]` is the word's bit `p - 1 + i` (R50). -/
theorem fieldE_getLsbD (f : FormatSpec) (w : BitVec f.N) {i : Nat} (hi : i < f.k) :
    (fieldE f w).getLsbD i = w.getLsbD (f.FW + i) := by
  rw [fieldE, BitVec.getLsbD_extractLsb', decide_eq_true hi, Bool.true_and]

/-- `F[i]` is the word's bit `i` (R50). -/
theorem fieldF_getLsbD (f : FormatSpec) (w : BitVec f.N) {i : Nat} (hi : i < f.FW) :
    (fieldF f w).getLsbD i = w.getLsbD i := by
  rw [fieldF, BitVec.getLsbD_extractLsb', decide_eq_true hi, Bool.true_and, Nat.zero_add]

/-- Settles O6: the weighted sum is `fields_sum`; the document's index counts from the field's top bit down, the model's from bit 0 up. -/
theorem fieldsTileTheWord : Obligations.FieldsTileTheWord := by
  intro f w
  refine ⟨(fields_sum f w).symm, rfl, ?exponentBits, ?fractionBits⟩
  case exponentBits =>
    intro i hi
    have hp := f.p_two
    have hplace : f.FW + (f.k - 1 - i) = f.N - 2 - i := by
      simp only [FormatSpec.FW, FormatSpec.N]
      omega
    rw [fieldE_getLsbD f w (by omega), hplace]
  case fractionBits =>
    intro j hj hj'
    have hlt : f.p - 1 - j < f.FW := by
      simp only [FormatSpec.FW]
      omega
    exact fieldF_getLsbD f w hlt

/-! ## Every word is the encoding of its class -/

/-- The match and mask pairs of R53 select the kind the Classifier gives. -/
theorem classKind_decodeWord (f : FormatSpec) (w : BitVec f.N) : classKind (decodeWord f w) = some (kindOfWord f w) := by
  rw [decodeWord_eq, kindOfWord_eq]
  split_ifs <;> rfl

/-- A fraction field that is not zero meets the side condition of the rows subnormal and nan. -/
theorem fractionNonzero_fieldF (f : FormatSpec) (w : BitVec f.N) (h : (fieldF f w).toNat ≠ 0) :
    fractionNonzero f (fieldF f w).toNat = true := by
  simp [fractionNonzero, fractionFits, h, (fieldF f w).isLt]

/-- An exponent field at neither end of its range, and any fraction field, meet the side conditions of the row normal. -/
theorem wellFormed_normal_fields (f : FormatSpec) (w : BitVec f.N) (hones : (fieldE f w).toNat ≠ 2 ^ f.k - 1)
    (hzeros : (fieldE f w).toNat ≠ 0) :
    (Instr.normal (fieldS f w) (fieldE f w).toNat (fieldF f w).toNat).wellFormed f = true := by
  have hE := (fieldE f w).isLt
  have hF := (fieldF f w).isLt
  simp only [Instr.wellFormed, exponentNormal, fractionFits, Bool.and_eq_true, decide_eq_true_eq]
  omega

/-- A word decodes to fields that its class has (R53). -/
theorem wellFormed_decodeWord (f : FormatSpec) (w : BitVec f.N) : (decodeWord f w).wellFormed f = true := by
  rw [decodeWord_eq]
  split_ifs with hones hF hzeros hF
  -- infinity, nan, zero, subnormal, normal
  · rfl
  · exact fractionNonzero_fieldF f w hF
  · rfl
  · exact fractionNonzero_fieldF f w hF
  · exact wellFormed_normal_fields f w hones hzeros

/-- The class a word decodes to writes the word's own number: the fields that the class leaves out are the ones its pattern fixes. -/
theorem wordNumber_decodeWord (f : FormatSpec) (w : BitVec f.N) : wordNumber f (decodeWord f w) = some w.toNat := by
  rw [decodeWord_eq, ← fields_sum f w]
  split_ifs with hones hF hzeros hF
  -- infinity, nan, zero, subnormal, normal
  · rw [hones, hF]; rfl
  · rw [hones]; rfl
  · rw [hzeros, hF, Nat.zero_mul]; rfl
  · rw [hzeros, Nat.zero_mul]; rfl
  · rfl

/-- Settles O4: the decoded class is well formed, has the word's kind, and its encoding writes `uint(w)`. -/
theorem everyWordIsTheEncodingOfItsClass : Obligations.EveryWordIsTheEncodingOfItsClass := by
  intro f w
  have hkind : classKind (decodeWord f w) ≠ none := by
    rw [classKind_decodeWord]
    exact Option.some_ne_none _
  have hword : w = BitVec.ofNat f.N w.toNat := by rw [BitVec.ofNat_toNat, BitVec.setWidth_eq]
  exact ⟨wellFormed_decodeWord f w, hkind,
    encode_eq_some.mpr ⟨wellFormed_decodeWord f w, w.toNat, wordNumber_decodeWord f w, hword⟩⟩

/-! ## The word of an accepted text -/

/-- One more digit on the right doubles the number and adds the digit. -/
theorem textNumber_concat (t : Text) (c : Char) : textNumber (t ++ [c]) = 2 * textNumber t + digitBit c := by
  rw [textNumber, List.foldl_concat, ← textNumber]

/-- The `i`-th digit from the left is the bit `length - 1 - i` of the number (R51). -/
theorem textNumber_testBit (t : Text) {i : Nat} (hi : i < t.length) :
    (textNumber t).testBit (t.length - 1 - i) = decide (t[i]? = some '1') := by
  induction t using List.reverseRecOn with
  | nil => cases hi
  | append_singleton t c ih =>
    rw [List.length_append, List.length_singleton] at hi ⊢
    have hbit : digitBit c < 2 := by unfold digitBit; split <;> decide
    rw [textNumber_concat]
    rcases Nat.lt_succ_iff_lt_or_eq.mp hi with hlt | rfl
    · have hplace : t.length + 1 - 1 - i = (t.length - 1 - i) + 1 := by omega
      have hhalf : (2 * textNumber t + digitBit c) / 2 = textNumber t := by omega
      rw [hplace, Nat.testBit_add_one, hhalf, ih hlt, List.getElem?_append_left hlt]
    · rw [Nat.add_sub_cancel, Nat.sub_self, Nat.testBit_zero, List.getElem?_concat_length]
      by_cases hc : c = '1' <;> simp [digitBit, hc]

/-- What `Load` answers for an accepted text: the word whose bits are the text's digits (R51, R73). -/
theorem loadText_of_accepted {f : FormatSpec} {t : Text} (h : Accepted f t) :
    ∃ w, loadText f t = .ok w ∧ ∀ i, i < f.N → w.getLsbD (f.N - 1 - i) = decide (t[i]? = some '1') := by
  obtain ⟨w, hw⟩ := (accepted_iff_loadText f t).mp h
  refine ⟨w, hw, fun i hi => ?_⟩
  rcases loadText_cases f t with ⟨hlen, _, hok⟩ | ⟨_, herr⟩
  · obtain rfl : BitVec.ofNat f.N (textNumber t) = w := Except.ok.inj (hok.symm.trans hw)
    have hlt : f.N - 1 - i < f.N := by omega
    rw [BitVec.getLsbD_ofNat, decide_eq_true hlt, Bool.true_and, ← hlen]
    exact textNumber_testBit t (hlen ▸ hi)
  · rw [herr] at hw
    cases hw

/-- Settles O7: the accepted text's word is driven, which is the next state the statement writes out. -/
theorem loadDeliversTheWordOfAnAcceptedText : Obligations.LoadDeliversTheWordOfAnAcceptedText := by
  intro s t h
  obtain ⟨w, hload, hbits⟩ := loadText_of_accepted h
  refine ⟨w, hbits, ?_⟩
  have hexec : exec (.load t) s = .next (s.drive w) := by rw [exec, execLoad, hload]
  exact hexec

/-! ## Cleanup -/

/-- Settles O48: `clean` is a filter that keeps a character unless it is one of the two separators. -/
theorem cleanDeletesTheSeparatorsOnly : Obligations.CleanDeletesTheSeparatorsOnly := by
  refine ⟨List.filter_nil, fun t => List.filter_cons_of_neg (by decide), fun t => List.filter_cons_of_neg (by decide), ?_⟩
  intro c t hspace hunderscore
  have hkept : (!(c == ' ' || c == '_')) = true := by simp [hspace, hunderscore]
  exact List.filter_cons_of_pos hkept

end Sys2Proof.Proofs.Encoding
end

section
/-! Proofs of the Bit-Field Partitioner's statements: PARTITION puts the three fields of the word on their ports (R74). -/

namespace Sys2Proof.Proofs.Partition

open Sys2Proof Sys2Proof.Machine
open Sys2Proof.Proofs.Encoding (fields_sum fieldE_getLsbD fieldF_getLsbD)

/-- The whole next state of PARTITION (R74): the ports of the three fields and the reply are written. -/
theorem exec_partition (s : State) :
    exec .partition s =
      .next { s with
        out := { s.out with signBit := fieldS s.fmt s.w, exponent := fieldE s.fmt s.w, fraction := fieldF s.fmt s.w }
        reply := .results } :=
  rfl

/-- Settles O13: what PARTITION drives are the fields of the word on the port, whose bits and weighted sum are those of R50. -/
theorem partitionDrivesTheFieldPorts : Obligations.PartitionDrivesTheFieldPorts := by
  intro s
  refine ⟨fieldS s.fmt s.w, fieldE s.fmt s.w, fieldF s.fmt s.w, exec_partition s, rfl, ?exponentBits, ?fractionBits, ?weightedSum⟩
  case exponentBits => exact fun _ hi => fieldE_getLsbD s.fmt s.w hi
  case fractionBits => exact fun _ hj => fieldF_getLsbD s.fmt s.w hj
  case weightedSum => exact (fields_sum s.fmt s.w).symm

end Sys2Proof.Proofs.Partition
end

section
/-! Proofs of the Classifier's statements: CLASSIFY follows the five conditions on its two field ports (R80 to R84, R88), and neither the
sign bit nor the bias takes part in the kind (R87). -/

namespace Sys2Proof.Proofs.Classify

open Sys2Proof Sys2Proof.Machine
open Sys2Proof.Proofs.Encoding (fieldE_getLsbD fieldF_getLsbD)

/-! ## CLASSIFY on its ports -/

/-- An exponent field is all ones, all zeros or neither, and never two of these (R85). -/
theorem exponent_cases {m : Nat} (hm : 1 ≤ m) (E : BitVec m) :
    (allOnes E = true ∧ allZeros E = false) ∨ (allOnes E = false ∧ allZeros E = true) ∨
      (allOnes E = false ∧ allZeros E = false) := by
  cases hzeros : allZeros E with
  | true => exact .inr (.inl ⟨not_allOnes_of_allZeros hm hzeros, rfl⟩)
  | false => cases allOnes E <;> simp

/-- The kind by the two fields as numbers (R80 to R84), whether or not they are those of the word on the port. -/
theorem kindOf_eq {m n : Nat} (hm : 1 ≤ m) (E : BitVec m) (F : BitVec n) : kindOf E F =
    if E.toNat = 2 ^ m - 1 then (if F.toNat = 0 then .infinity else .nan)
    else if E.toNat = 0 then (if F.toNat = 0 then .zero else .subnormal)
    else .normal := by
  simp only [← allOnes_iff, ← allZeros_iff]
  rcases exponent_cases hm E with ⟨hones, hzeros⟩ | ⟨hones, hzeros⟩ | ⟨hones, hzeros⟩ <;> cases hF : allZeros F <;>
    simp [kindOf, isNan, isInfinity, isSubnormal, isZero, anyOne, hones, hzeros, hF]

/-- The predicates and the code that CLASSIFY drives are those of one kind (R85). -/
theorem classified_eq {f : FormatSpec} (out : Outputs f) : classified out =
    let k := kindOf out.exponent out.fraction
    { out with
      isZero := decide (k = .zero), isSubnormal := decide (k = .subnormal), isNormal := decide (k = .normal)
      isInfinity := decide (k = .infinity), isNan := decide (k = .nan), kind := kindCode k } := by
  rcases exponent_cases f.k_pos out.exponent with ⟨hones, hzeros⟩ | ⟨hones, hzeros⟩ | ⟨hones, hzeros⟩ <;>
    cases hF : allZeros out.fraction <;>
    simp [classified, kindOf, isNan, isInfinity, isSubnormal, isZero, isNormal, anyOne, kindBits, kindCode, hones, hzeros, hF]

/-- The whole next state of CLASSIFY: the kind of the two field ports is in place (R88). -/
theorem exec_classify (s : State) :
    exec .classify s = .next (classifiedAs (kindOf s.out.exponent s.out.fraction) s) := by
  have hexec : exec .classify s = .next { s with
      out := classified s.out, view := { s.view with kind := kindOf s.out.exponent s.out.fraction }, reply := .results } := rfl
  rw [hexec, classified_eq, classifiedAs]

/-- Settles O14: by `exec_classify` each clause is about the kind of the ports, which `kindOf_eq` reads off the two numbers; both ends of the
exponent differ as `2 ≤ 2 ^ k`. -/
theorem classifyFollowsTheFiveConditions : Obligations.ClassifyFollowsTheFiveConditions := by
  intro s e F
  have hk := two_le_two_pow_k s.fmt
  rw [exec_classify, kindOf_eq s.fmt.k_pos]
  refine ⟨?nan, ?infinity, ?subnormal, ?zero, ?normal⟩
  case nan => intro he hF; rw [if_pos he, if_neg hF]
  case infinity => intro he hF; rw [if_pos he, if_pos hF]
  case subnormal => intro he hF; rw [if_neg (by omega), if_pos he, if_neg hF]
  case zero => intro he hF; rw [if_neg (by omega), if_pos he, if_pos hF]
  case normal => intro hlow hhigh; rw [if_neg (by omega), if_neg (by omega)]

/-! ## What takes no part in the kind -/

/-- The code on the port is the one of the word's kind (R28, R88). -/
theorem decodeOutputs_kind (f : FormatSpec) (w : BitVec f.N) : (decodeOutputs f w).kind = kindCode (kindOfWord f w) := by
  rw [decodeOutputs_eq]

/-- The exponent field lies below the sign bit (R50). -/
theorem fieldE_congr {f : FormatSpec} {w w' : BitVec f.N} (h : ∀ i, i < f.N - 1 → w.getLsbD i = w'.getLsbD i) :
    fieldE f w = fieldE f w' := by
  apply BitVec.eq_of_getLsbD_eq
  intro i hi
  have hp := f.p_two
  have hbelow : f.FW + i < f.N - 1 := by
    simp only [FormatSpec.FW, FormatSpec.N]
    omega
  rw [fieldE_getLsbD f w hi, fieldE_getLsbD f w' hi, h _ hbelow]

/-- The fraction field lies below the sign bit (R50). -/
theorem fieldF_congr {f : FormatSpec} {w w' : BitVec f.N} (h : ∀ i, i < f.N - 1 → w.getLsbD i = w'.getLsbD i) :
    fieldF f w = fieldF f w' := by
  apply BitVec.eq_of_getLsbD_eq
  intro i hi
  have hbelow : i < f.N - 1 := by
    simp only [FormatSpec.FW, FormatSpec.N] at hi ⊢
    omega
  rw [fieldF_getLsbD f w hi, fieldF_getLsbD f w' hi, h _ hbelow]

/-- Words that agree below the sign bit have one kind (R87). -/
theorem kindOfWord_congr {f : FormatSpec} {w w' : BitVec f.N} (h : ∀ i, i < f.N - 1 → w.getLsbD i = w'.getLsbD i) :
    kindOfWord f w = kindOfWord f w' := by
  rw [kindOfWord, kindOfWord, fieldE_congr h, fieldF_congr h]

/-- The kind of a word is that of its two fields, and the bias places neither (R87). -/
theorem kindOfWord_bias (f : FormatSpec) (b : Int) (h : 0 ≤ b ∧ b < ((2 ^ f.k : Nat) : Int)) (w : BitVec f.N) :
    kindOfWord { f with bias := b, bias_range := h } w = kindOfWord f w :=
  rfl

/-- Settles O16: by `decodeOutputs_kind` both clauses are about the word's kind. -/
theorem signAndBiasTakeNoPartInTheKind : Obligations.SignAndBiasTakeNoPartInTheKind := by
  constructor
  · intro f w w' h
    have hkind := kindOfWord_congr h
    exact ⟨by rw [decodeOutputs_kind, decodeOutputs_kind, hkind], hkind⟩
  · intro f b h w
    rw [decodeOutputs_kind, decodeOutputs_kind, kindOfWord_bias]

end Sys2Proof.Proofs.Classify
end

section
/-! Proofs of the field values' statements: SIGN gives `(-1)^S` (R90), EXPONENT the exponent bits' big-endian value (R91) and FRACTION the
fraction bits' weighted sum (R92), each the whole next state. -/

namespace Sys2Proof.Proofs.FieldValues

open Sys2Proof Sys2Proof.Machine

/-! ## The next states -/

/-- The whole next state of SIGN (R90). -/
theorem exec_sign (s : State) :
    exec .sign s =
      .next { s with
        out := { s.out with signNeg := s.out.signBit }
        view := { s.view with sign := signOf s.out.signBit }
        reply := .results } :=
  rfl

/-- The whole next state of EXPONENT (R91). -/
theorem exec_exponent (s : State) :
    exec .exponent s = .next { s with view := { s.view with exponent := s.out.exponent.toNat }, reply := .results } :=
  rfl

/-- The whole next state of FRACTION (R92). -/
theorem exec_fraction (s : State) :
    exec .fraction s = .next { s with view := { s.view with fraction := fractionOf s.fmt s.out.fraction }, reply := .results } :=
  rfl

/-! ## The sign -/

/-- `sign` is `-1` to the sign bit (R90). -/
theorem signOf_eq_pow (S : Bool) : signOf S = (-1 : Int) ^ S.toNat := by
  cases S with
  | false => rfl
  | true => rfl

/-- Settles O25: SIGN writes `signOf` of the sign port, which is the power the statement names. -/
theorem signFollowsTheSignBit : Obligations.SignFollowsTheSignBit := by
  intro s
  rw [exec_sign, signOf_eq_pow]

/-! ## Bits and their weights -/

/-- The lowest `n` bits of a number, each at its weight, sum to its remainder by `2 ^ n`. -/
theorem sum_testBit_mul_two_pow (x n : Nat) :
    ∑ i ∈ Finset.range n, (x.testBit i).toNat * 2 ^ i = x % 2 ^ n := by
  induction n with
  | zero => rw [Finset.sum_range_zero, pow_zero, Nat.mod_one]
  | succ n ih => rw [Finset.sum_range_succ, ih, Nat.mod_pow_succ, Nat.toNat_testBit, mul_comm]

/-- `uint(v)` as the document sums it: the index counts from the most significant bit down (R91). -/
theorem sum_bigEndian_bits {n : Nat} (v : BitVec n) :
    ∑ i ∈ Finset.range n, (v.getLsbD (n - 1 - i)).toNat * 2 ^ (n - 1 - i) = v.toNat := by
  rw [Finset.sum_range_reflect (fun i => (v.getLsbD i).toNat * 2 ^ i)]
  exact (sum_testBit_mul_two_pow v.toNat n).trans (Nat.mod_eq_of_lt v.isLt)

/-- Settles O26: the reading is `uint(E)`, which is the big-endian sum and below `2 ^ k`. -/
theorem exponentIsTheBigEndianValueOfItsBits : Obligations.ExponentIsTheBigEndianValueOfItsBits := by
  intro s
  exact ⟨s.out.exponent.toNat, exec_exponent s, (sum_bigEndian_bits s.out.exponent).symm, Nat.le_sub_one_of_lt s.out.exponent.isLt⟩

/-- A bit's weight in the integer, divided by `2 ^ n`, is its weight in the fraction (R92). -/
theorem two_pow_div_eq_zpow {n j : Nat} (hj : j < n) : (2 : Rat) ^ (n - 1 - j) / 2 ^ n = 2 ^ (-((j : Int) + 1)) := by
  have hexp : -((j : Int) + 1) = ((n - 1 - j : Nat) : Int) - (n : Int) := by omega
  rw [hexp, zpow_sub₀ two_ne_zero, zpow_natCast, zpow_natCast]

/-- The fraction is the sum of its bits with the weights `2^-1, 2^-2, ...` (R92). -/
theorem fractionOf_eq_sum (f : FormatSpec) (F : BitVec f.FW) :
    fractionOf f F =
      ∑ j ∈ Finset.range f.FW, ((F.getLsbD (f.FW - (j + 1))).toNat : Rat) * (2 : Rat) ^ (-((j : Int) + 1)) := by
  rw [fractionOf_eq_div, ← sum_bigEndian_bits F, Nat.cast_sum, Finset.sum_div]
  refine Finset.sum_congr rfl fun j hj => ?_
  have hplace : f.FW - (j + 1) = f.FW - 1 - j := by omega
  rw [hplace, Nat.cast_mul, Nat.cast_pow, Nat.cast_ofNat, mul_div_assoc, two_pow_div_eq_zpow (Finset.mem_range.mp hj)]

theorem fractionOf_nonneg (f : FormatSpec) (F : BitVec f.FW) : 0 ≤ fractionOf f F := by
  rw [fractionOf_eq_div]
  positivity

/-- The greatest fraction is that of `p - 1` ones (R92). -/
theorem fractionOf_le (f : FormatSpec) (F : BitVec f.FW) : fractionOf f F ≤ 1 - (2 : Rat) ^ (-((f.p : Int) - 1)) := by
  have hF : (F.toNat : Rat) + 1 ≤ 2 ^ f.FW := by exact_mod_cast F.isLt
  have hpos : (0 : Rat) < 2 ^ f.FW := by positivity
  rw [fractionOf_eq_div, p_sub_one, zpow_neg, zpow_natCast, le_sub_iff_add_le, ← one_div, ← add_div, div_le_one hpos]
  exact hF

/-- Settles O27: the reading is `fractionOf` of the port, whose sum, quotient and range are the lemmas above; the last bound leaves room
below 1 since a power of two is positive. -/
theorem fractionIsTheWeightedSumOfItsBits : Obligations.FractionIsTheWeightedSumOfItsBits := by
  intro s
  have hle := fractionOf_le s.fmt s.out.fraction
  have hlast : (0 : Rat) < 2 ^ (-((s.fmt.p : Int) - 1)) := by positivity
  exact ⟨fractionOf s.fmt s.out.fraction, exec_fraction s, fractionOf_eq_sum _ _, fractionOf_eq_div _ _, fractionOf_nonneg _ _, hle,
    hle.trans_lt (sub_lt_self 1 hlast)⟩

end Sys2Proof.Proofs.FieldValues
end

section
/-! Proofs of the bias arithmetic's statement: TEXP gives the true exponent, and the port `texp` holds it without wrapping (R100, R113). -/

namespace Sys2Proof.Proofs.TrueExponent

open Sys2Proof Sys2Proof.Machine

/-- A stored exponent less the bias lies in the port's range, whatever the admitted bias (R9, R11, R113). -/
theorem texpBits_sub_bias (f : FormatSpec) {E : Nat} (hE : E < 2 ^ f.k) :
    (texpBits f ((E : Int) - f.bias)).toInt = (E : Int) - f.bias := by
  obtain ⟨hlow, hhigh⟩ := f.bias_range
  have hE' : (E : Int) < (2 : Int) ^ f.k := by exact_mod_cast hE
  push_cast at hhigh
  exact texpBits_toInt f _ (by omega) (by omega)

/-- The scale of the subnormal words is that of the least normal exponent, and in the port's range with it (R100). -/
theorem texpBits_one_sub_bias (f : FormatSpec) : (texpBits f (1 - f.bias)).toInt = 1 - f.bias :=
  texpBits_sub_bias f (E := 1) (two_le_two_pow_k f)

/-- Where there is a true exponent, the port holds it (R113). -/
theorem texpBits_trueExponentOf {f : FormatSpec} {k : Option Kind} {E : BitVec f.k} {e : Int}
    (h : trueExponentOf f k E = some e) : (texpBits f e).toInt = e := by
  unfold trueExponentOf at h
  split at h
  · cases h; exact texpBits_sub_bias f E.isLt
  · cases h; exact texpBits_one_sub_bias f
  · cases h

/-- The whole next state of TEXP where the code on the port has a true exponent (R100). -/
theorem exec_texp_of_some {s : State} {e : Int} (h : trueExponentOf s.fmt (kindOfCode s.out.kind) s.out.exponent = some e) :
    exec .texp s =
      .next { s with
        out := { s.out with texp := texpBits s.fmt e }
        view := { s.view with trueExponent := some e }
        reply := .results } := by
  rw [exec, execTexp, h]
  rfl

/-- Settles O31: the codes of normal and subnormal are those with a true exponent, which the port holds. -/
theorem texpIsTheTrueExponentWithoutWrapping : Obligations.TexpIsTheTrueExponentWithoutWrapping := by
  intro s e h
  have he : trueExponentOf s.fmt (kindOfCode s.out.kind) s.out.exponent = some e := by
    rcases h with ⟨hkind, rfl⟩ | ⟨hkind, rfl⟩ <;> rw [hkind] <;> rfl
  exact ⟨texpBits s.fmt e, exec_texp_of_some he, texpBits_trueExponentOf he⟩

end Sys2Proof.Proofs.TrueExponent
end

section
/-! Proofs of the word classes' statements: each class instruction puts its word on the port with the outputs and the value of its row (R80
to R84, R101 to R105). -/

namespace Sys2Proof.Proofs.WordClasses

open Sys2Proof Sys2Proof.Machine
open Sys2Proof.Proofs.TrueExponent (texpBits_sub_bias texpBits_one_sub_bias)

/-! ## Delivering a word of a class -/

/-- A well-formed class instruction puts the word with its number on the port, and the row's outputs and readings with it (R76). -/
theorem exec_class {i : Instr} {s : State} {n : Nat} {out : BitVec s.fmt.N → Outputs s.fmt} {view : View}
    (hrow : exec i s = deliverClass i s out view) (hfits : Laws.WordFits.Statement i) (hwf : i.wellFormed s.fmt = true)
    (hnumber : wordNumber s.fmt i = some n) :
    ∃ w : BitVec s.fmt.N, w.toNat = n ∧
      exec i s = .next { s with w := w, out := out w, view := view, reply := .results } := by
  have hencode : encode s.fmt i = some (BitVec.ofNat s.fmt.N n) := encode_eq_some.mpr ⟨hwf, n, hnumber, rfl⟩
  refine ⟨BitVec.ofNat s.fmt.N n, ?_, ?_⟩
  · rw [BitVec.toNat_ofNat, Nat.mod_eq_of_lt (hfits s.fmt n hwf hnumber)]
  · rw [hrow, deliverClass, hencode]
    rfl

/-- A field's port reads the field's number when the number fits the field. -/
theorem toNat_ofNat_of_fits {n x : Nat} (h : x < 2 ^ n) : (BitVec.ofNat n x).toNat = x := by
  rw [BitVec.toNat_ofNat, Nat.mod_eq_of_lt h]

/-- A fraction that is not zero and fits its field meets the side condition of the rows subnormal and nan (R80, R82). -/
theorem fractionNonzero_of_fits {f : FormatSpec} {F : Nat} (hF : F ≠ 0) (hfits : F < 2 ^ f.FW) : fractionNonzero f F = true := by
  rw [fractionNonzero, fractionFits, decide_eq_true hF, decide_eq_true hfits, Bool.and_self]

/-- The side condition of the row normal (R84). -/
theorem wellFormed_normal_of_fits {f : FormatSpec} (S : Bool) {E F : Nat} (hlow : 1 ≤ E) (hhigh : E + 2 ≤ 2 ^ f.k)
    (hF : F < 2 ^ f.FW) : (Instr.normal S E F).wellFormed f = true := by
  rw [Instr.wellFormed, exponentNormal, fractionFits, decide_eq_true hlow, decide_eq_true hhigh, decide_eq_true hF]
  rfl

/-! ## The two zeros and the two infinities -/

/-- Settles O18: the row's word is delivered; its number is the sign's weight alone. -/
theorem zeroWordHasTheSignedZero : Obligations.ZeroWordHasTheSignedZero := by
  intro S s
  obtain ⟨w, hnumber, hexec⟩ := exec_class (s := s) (by rw [exec, execZero]) (Laws.WordFits.zero S) rfl rfl
  exact ⟨w, _, _, hexec, hnumber, rfl, BitVec.toNat_zero, BitVec.toNat_zero, rfl, rfl, rfl, rfl, rfl, rfl, rfl, rfl, rfl,
    rfl, rfl, rfl, rfl⟩

/-- Settles O19: the row's word is delivered; its exponent field is all ones. -/
theorem infinityWordRespectsTheSign : Obligations.InfinityWordRespectsTheSign := by
  intro S s
  obtain ⟨w, hnumber, hexec⟩ := exec_class (s := s) (by rw [exec, execInfinity]) (Laws.WordFits.infinity S) rfl rfl
  exact ⟨w, _, _, hexec, hnumber, rfl, BitVec.toNat_allOnes, BitVec.toNat_zero, rfl, rfl, rfl, rfl, rfl, rfl, rfl, rfl, rfl,
    rfl, rfl, rfl, rfl⟩

/-! ## The classes with a fraction -/

/-- Settles O21: the row's word is delivered with its sign and fraction in sight, and the one NaN as its value. -/
theorem nanWordCollapsesToTheUnsignedNan : Obligations.NanWordCollapsesToTheUnsignedNan := by
  intro S F s hF hfits
  obtain ⟨w, hnumber, hexec⟩ :=
    exec_class (s := s) (by rw [exec, execNan]) (Laws.WordFits.nan S F) (fractionNonzero_of_fits hF hfits) rfl
  exact ⟨w, _, _, hexec, hnumber, rfl, BitVec.toNat_allOnes, toNat_ofNat_of_fits hfits, rfl, rfl, rfl, rfl, rfl, rfl, rfl,
    rfl, rfl, rfl, rfl, rfl, rfl⟩

/-- `{0, F}` reads `F`, there being no hidden bit (R93). -/
theorem withHiddenBit_false_toNat (f : FormatSpec) (F : BitVec f.FW) : (withHiddenBit f false F).toNat = F.toNat := by
  rw [withHiddenBit_toNat, Bool.toNat_false, Nat.zero_mul, Nat.zero_add]

/-- `{1, F}` reads the hidden bit's weight and `F` (R93). -/
theorem withHiddenBit_true_toNat (f : FormatSpec) (F : BitVec f.FW) : (withHiddenBit f true F).toNat = 2 ^ f.FW + F.toNat := by
  rw [withHiddenBit_toNat, Bool.toNat_true, Nat.one_mul]

/-- The value of a subnormal word as R104 writes it. -/
theorem subnormalValue_eq_pow (f : FormatSpec) (S : Bool) (F : BitVec f.FW) :
    subnormalValue f S F = .fin ((-1 : Rat) ^ S.toNat * (2 : Rat) ^ (1 - f.bias) * ((F.toNat : Rat) / 2 ^ f.FW)) := by
  rw [subnormalValue_eq, signed_eq, mul_assoc]

/-- The value of a normal word as R105 writes it, the hidden bit being the 1 before the fraction. -/
theorem normalValue_eq_pow (f : FormatSpec) (S : Bool) (E : BitVec f.k) (F : BitVec f.FW) :
    normalValue f S E F =
      .fin ((-1 : Rat) ^ S.toNat * (2 : Rat) ^ ((E.toNat : Int) - f.bias) * (1 + (F.toNat : Rat) / 2 ^ f.FW)) := by
  have hunit : (2 : Rat) ^ f.FW ≠ 0 := pow_ne_zero _ two_ne_zero
  rw [normalValue_eq, signed_eq, mul_assoc, add_div, div_self hunit]

/-- Settles O20: the row's word is delivered; `sig`, `texp` and the value are read from `F` and the bias by the lemmas above. -/
theorem subnormalWordHasNoHiddenBit : Obligations.SubnormalWordHasNoHiddenBit := by
  intro S F s hF hfits
  have hfraction : (BitVec.ofNat s.fmt.FW F).toNat = F := toNat_ofNat_of_fits hfits
  have hsig := (withHiddenBit_false_toNat s.fmt (BitVec.ofNat s.fmt.FW F)).trans hfraction
  have hvalue := subnormalValue_eq_pow s.fmt S (BitVec.ofNat s.fmt.FW F)
  rw [hfraction] at hvalue
  obtain ⟨w, hnumber, hexec⟩ :=
    exec_class (s := s) (by rw [exec, execSubnormal]) (Laws.WordFits.subnormal S F) (fractionNonzero_of_fits hF hfits) rfl
  exact ⟨w, _, _, hexec, hnumber, rfl, BitVec.toNat_zero, hfraction, rfl, rfl, rfl, rfl, rfl, rfl, rfl, rfl, rfl, hsig,
    texpBits_one_sub_bias s.fmt, rfl, hvalue⟩

/-- Settles O22: the row's word is delivered; `sig`, `texp` and the value are read from `E`, `F` and the bias by the lemmas above. -/
theorem normalWordHasTheHiddenBit : Obligations.NormalWordHasTheHiddenBit := by
  intro S E F s hlow hhigh hfits
  have hE : E < 2 ^ s.fmt.k := by omega
  have hexponent : (BitVec.ofNat s.fmt.k E).toNat = E := toNat_ofNat_of_fits hE
  have hfraction : (BitVec.ofNat s.fmt.FW F).toNat = F := toNat_ofNat_of_fits hfits
  have hsig := withHiddenBit_true_toNat s.fmt (BitVec.ofNat s.fmt.FW F)
  have hvalue := normalValue_eq_pow s.fmt S (BitVec.ofNat s.fmt.k E) (BitVec.ofNat s.fmt.FW F)
  rw [hfraction] at hsig
  rw [hexponent, hfraction] at hvalue
  obtain ⟨w, hnumber, hexec⟩ :=
    exec_class (s := s) (by rw [exec, execNormal]) (Laws.WordFits.normal S E F) (wellFormed_normal_of_fits S hlow hhigh hfits) rfl
  exact ⟨w, _, _, hexec, hnumber, rfl, hexponent, hfraction, rfl, rfl, rfl, rfl, rfl, rfl, rfl, rfl, rfl, hsig,
    texpBits_sub_bias s.fmt hE, rfl, hvalue⟩

end Sys2Proof.Proofs.WordClasses
end

section
/-! Proofs of the Value Resolver's statements: the four value ports of a word denote its value (R107), a sixth kind is an InternalError
(R106), `val_neg` drops the sign of a NaN only (R108), and the equality of values (R109). -/

namespace Sys2Proof.Proofs.Resolver

open Sys2Proof Sys2Proof.Machine
open Sys2Proof.Proofs.TrueExponent (texpBits_sub_bias texpBits_one_sub_bias)
open Sys2Proof.Proofs.WordClasses (withHiddenBit_false_toNat withHiddenBit_true_toNat)

/-! ## The denotation of the value ports -/

/-- `Val` on the codes of the finite kinds, as R107 writes it. -/
theorem denote_finite (f : FormatSpec) (n : Bool) (t : BitVec f.XW) (m : BitVec f.p) {c : BitVec 3} (hc : c = 1#3 ∨ c = 2#3) :
    denote f c n t m =
      .ok (.fin ((-1 : Rat) ^ n.toNat * (m.toNat : Rat) * (2 : Rat) ^ (t.toInt - ((f.p : Int) - 1)))) := by
  rw [mul_assoc, ← signed_eq, ← pow2_eq_zpow]
  rcases hc with rfl | rfl <;> rfl

/-- `Val` by what the two number ports hold: the integer `M` on `sig` at the scale `2^(e-(p-1))` is the significand `M / 2^(p-1)` at the
scale `2^e` (R93, R107). -/
theorem denote_scaled (f : FormatSpec) (S : Bool) {c : BitVec 3} (hc : c = 1#3 ∨ c = 2#3) {t : BitVec f.XW} {m : BitVec f.p}
    {e : Int} {M : Nat} (ht : t.toInt = e) (hm : m.toNat = M) :
    denote f c S t m = .ok (.fin (signed S ((2 : Rat) ^ e * ((M : Rat) / 2 ^ f.FW)))) := by
  have hscale : (M : Rat) * (2 : Rat) ^ (e - (f.FW : Int)) = (2 : Rat) ^ e * ((M : Rat) / 2 ^ f.FW) := by
    rw [zpow_sub₀ two_ne_zero, zpow_natCast, mul_div_left_comm]
  rw [denote_finite f S t m hc, ht, hm, p_sub_one, mul_assoc, hscale, signed_eq]

/-- `val_neg` is the sign bit for every kind but nan (R108). -/
theorem and_not_nan {k : Kind} (S : Bool) (h : k ≠ .nan) : (S && !decide (k = .nan)) = S := by
  rw [decide_eq_false h, Bool.not_false, Bool.and_true]

/-- The ports that a kind and three fields drive denote the value that the kind's rule gives the fields (R101 to R105). -/
theorem denote_ports (f : FormatSpec) (w : BitVec f.N) (k : Kind) (S : Bool) (E : BitVec f.k) (F : BitVec f.FW) :
    denote f (kindCode k) (S && !decide (k = .nan)) (texpPort f w (trueExponentOf f (some k) E)) (sigPort f w (some k) F) =
      .ok (valueOf f k S E F) := by
  cases k with
  | zero => rw [and_not_nan S (by decide)]; rfl
  | infinity => rw [and_not_nan S (by decide)]; rfl
  | nan => rfl
  | subnormal =>
    rw [and_not_nan S (by decide), valueOf, subnormalValue_eq]
    exact denote_scaled f S (.inl rfl) (texpBits_one_sub_bias f) (withHiddenBit_false_toNat f F)
  | normal =>
    have hval := denote_scaled f S (.inr rfl) (texpBits_sub_bias f E.isLt) (withHiddenBit_true_toNat f F)
    rw [Nat.cast_add, Nat.cast_pow, Nat.cast_ofNat] at hval
    rw [and_not_nan S (by decide), valueOf, normalValue_eq]
    exact hval

/-- The value that the caller reads of a word is the one that its kind's rule gives its fields. -/
theorem valueOfWord_eq (f : FormatSpec) (w : BitVec f.N) :
    valueOfWord f w = valueOf f (kindOfWord f w) (fieldS f w) (fieldE f w) (fieldF f w) :=
  rfl

/-- The value ports of a word denote its value (R107). -/
theorem denote_decodeOutputs (f : FormatSpec) (w : BitVec f.N) :
    denote f (decodeOutputs f w).kind (decodeOutputs f w).valNeg (decodeOutputs f w).texp (decodeOutputs f w).sig =
      .ok (valueOfWord f w) := by
  rw [decodeOutputs_eq, valueOfWord_eq]
  exact denote_ports f w _ _ _ _

/-! ## Finite values are not zero -/

theorem signed_ne_zero {S : Bool} {q : Rat} (h : q ≠ 0) : signed S q ≠ 0 := by
  cases S with
  | false => exact h
  | true => exact neg_ne_zero.mpr h

/-- The fraction field of a subnormal word is not zero (R82). -/
theorem fieldF_ne_zero_of_subnormal {f : FormatSpec} {w : BitVec f.N} (h : kindOfWord f w = .subnormal) :
    (fieldF f w).toNat ≠ 0 := by
  intro hF
  rw [kindOfWord_eq, if_pos hF, if_pos hF] at h
  split_ifs at h

/-- A finite value is a power of two times a positive significand, with a sign (R107). -/
theorem finite_value_ne_zero {f : FormatSpec} {w : BitVec f.N} {q : Rat} (h : valueOfWord f w = .fin q) : q ≠ 0 := by
  rw [valueOfWord_eq] at h
  cases hkind : kindOfWord f w <;> rw [hkind] at h
  case zero => cases h
  case infinity => cases h
  case nan => cases h
  case subnormal =>
    have hF : (0 : Rat) < (fieldF f w).toNat := by exact_mod_cast Nat.pos_of_ne_zero (fieldF_ne_zero_of_subnormal hkind)
    rw [valueOf, subnormalValue_eq] at h
    cases h
    exact signed_ne_zero (by positivity)
  case normal =>
    rw [valueOf, normalValue_eq] at h
    cases h
    exact signed_ne_zero (by positivity)

/-- Settles O39: `Val` by its codes, and the two lemmas on the word's value. -/
theorem valuePortsDenoteTheValue : Obligations.ValuePortsDenoteTheValue := by
  constructor
  · intro f n t m
    exact ⟨rfl, rfl, rfl, fun c hc => denote_finite f n t m hc⟩
  · intro f w
    exact ⟨denote_decodeOutputs f w, fun q hq => finite_value_ne_zero hq⟩

/-! ## A sixth kind -/

/-- Every case of the Value Resolver faults on a code that names no kind (R106). -/
theorem valueCase_of_no_kind {s : State} (k : Kind) (v : Value) (neg : Bool) (h : kindOfCode s.out.kind = none) :
    valueCase k v neg s = .fault (.internalError s.out.kind) := by
  rw [valueCase, h]

/-- Settles O38: the codes 5, 6 and 7 name no kind, and the ports of a word have a value by `denote_decodeOutputs`. -/
theorem valueOnASixthKindIsInternalError : Obligations.ValueOnASixthKindIsInternalError := by
  refine ⟨?cases, ?denotation, ?words⟩
  case cases =>
    intro s i hi hcode
    have hnone := (kindOfCode_eq_none s.out.kind).mpr hcode
    simp only [List.mem_cons, List.not_mem_nil, or_false] at hi
    rcases hi with rfl | rfl | rfl | rfl | rfl <;> exact valueCase_of_no_kind _ _ _ hnone
  case denotation =>
    intro f c n t m hcode
    rw [denote, (kindOfCode_eq_none c).mpr hcode]
  case words =>
    intro f w o herror
    cases (denote_decodeOutputs f w).symm.trans herror

/-! ## The sign of the value -/

/-- Settles O40: by `decodeOutputs_eq` both ports are the sign bit, but for `val_neg` of a nan word, which is 0. -/
theorem valNegDropsTheSignOfNanOnly : Obligations.ValNegDropsTheSignOfNanOnly := by
  intro f w
  rw [decodeOutputs_eq]
  refine ⟨rfl, rfl, ?_⟩
  show (fieldS f w && !decide (kindOfWord f w = .nan)) ≠ fieldS f w ↔ kindOfWord f w = .nan ∧ fieldS f w = true
  by_cases hnan : kindOfWord f w = .nan
  · cases fieldS f w <;> simp [hnan]
  · rw [and_not_nan _ hnan]
    simp [hnan]

/-! ## Equality of values -/

theorem feq_nan_left (a : Value) : feq .nan a = false := by cases a <;> rfl

theorem feq_nan_right (a : Value) : feq a .nan = false := by cases a <;> rfl

/-- Settles O41: NaN by the two lemmas above, two values of one kind by what the kind carries, two of different kinds by their rows. -/
theorem ordinaryEqualityOfValues : Obligations.OrdinaryEqualityOfValues := by
  refine ⟨fun a => ⟨feq_nan_left a, feq_nan_right a⟩, fun _ _ => rfl, ?infinities, ?numbers, ?differentKinds⟩
  case infinities => exact fun _ _ => beq_iff_eq
  case numbers => exact fun _ _ => beq_iff_eq
  case differentKinds => exact fun _ _ _ => ⟨rfl, rfl, rfl, rfl, rfl, rfl⟩

end Sys2Proof.Proofs.Resolver
end

section
/-! Proofs of the presentation views' statements: STRBITS groups the digits of the three field ports (R120), `str_bits` without its
separators is the accepted text (R121), and SUMMARY has the ten entries (R123, R124). -/

namespace Sys2Proof.Proofs.Presentation

open Sys2Proof Sys2Proof.Machine
open Sys2Proof.Proofs.Encoding (fieldE_getLsbD fieldF_getLsbD loadText_of_accepted cleanDeletesTheSeparatorsOnly)

/-! ## Digits -/

@[simp] theorem digits_length {n : Nat} (v : BitVec n) : (digits v).length = n := by
  rw [digits, List.length_map, List.length_range]

/-- The digits stand most significant first (R120). -/
theorem digits_getElem? {n i : Nat} (v : BitVec n) (hi : i < n) : (digits v)[i]? = some (digit (v.getLsbD (n - 1 - i))) := by
  rw [digits, List.getElem?_map, List.getElem?_range hi, Option.map_some]

theorem digit_ne_separator (b : Bool) : digit b ≠ ' ' ∧ digit b ≠ '_' := by
  cases b <;> decide

/-- Cleanup keeps a digit (R58). -/
theorem clean_digit_cons (b : Bool) (t : Text) : clean (digit b :: t) = digit b :: clean t := by
  obtain ⟨_, _, _, hkeep⟩ := cleanDeletesTheSeparatorsOnly
  exact hkeep _ t (digit_ne_separator b).1 (digit_ne_separator b).2

/-- Cleanup deletes a separator that is a space or an underscore (R58). -/
theorem clean_separator_cons {sep : Char} (h : sep = ' ' ∨ sep = '_') (t : Text) : clean (sep :: t) = clean t := by
  obtain ⟨_, hspace, hunderscore, _⟩ := cleanDeletesTheSeparatorsOnly
  rcases h with rfl | rfl
  · exact hspace t
  · exact hunderscore t

/-- Cleanup keeps all digits of a bit vector (R58). -/
theorem clean_digits {n : Nat} (v : BitVec n) : clean (digits v) = digits v := by
  refine List.filter_eq_self.mpr fun c hc => ?_
  obtain ⟨i, _, rfl⟩ := List.mem_map.mp hc
  cases v.getLsbD (n - 1 - i) <;> decide

/-- Cleanup works on each part of a text by itself. -/
theorem clean_append (t u : Text) : clean (t ++ u) = clean t ++ clean u := List.filter_append t u

/-! ## The grouped digits -/

section Groups

variable (f : FormatSpec) (sep : Char) (S : Bool) (E : BitVec f.k) (F : BitVec f.FW)

/-- One sign digit, `k` exponent digits, `p - 1` fraction digits and two separators (R120). -/
theorem strBitsOf_length : (strBitsOf f sep S E F).length = f.N + 2 := by
  have hp := f.p_two
  simp only [strBitsOf, List.length_cons, List.length_append, digits_length, FormatSpec.FW, FormatSpec.N]
  omega

/-- The exponent digits follow the first separator (R120). -/
theorem strBitsOf_exponent {i : Nat} (hi : i < f.k) :
    (strBitsOf f sep S E F)[2 + i]? = some (digit (E.getLsbD (f.k - 1 - i))) := by
  rw [strBitsOf, Nat.add_comm, List.getElem?_cons_succ, List.getElem?_cons_succ,
    List.getElem?_append_left ((digits_length E).symm ▸ hi), digits_getElem? E hi]

/-- Behind the sign digit, the first separator and the exponent digits stand the second separator and the fraction digits (R120). -/
theorem strBitsOf_getElem?_add (n : Nat) : (strBitsOf f sep S E F)[f.k + 2 + n]? = (sep :: digits F)[n]? := by
  have hplace : f.k + 2 + n = f.k + n + 1 + 1 := by omega
  rw [strBitsOf, hplace, List.getElem?_cons_succ, List.getElem?_cons_succ, List.getElem?_append_right (by simp),
    digits_length, Nat.add_sub_cancel_left]

/-- The fraction digits follow the second separator (R120). -/
theorem strBitsOf_fraction {j : Nat} (hj : j < f.FW) :
    (strBitsOf f sep S E F)[f.k + 3 + j]? = some (digit (F.getLsbD (f.FW - 1 - j))) := by
  have hplace : f.k + 3 + j = f.k + 2 + (j + 1) := by omega
  rw [hplace, strBitsOf_getElem?_add, List.getElem?_cons_succ, digits_getElem? F hj]

/-- Without the characters at `1` and `k + 2` the digits of the three fields are left (R121). -/
theorem removeSeparators_strBitsOf : removeSeparators f (strBitsOf f sep S E F) = digit S :: (digits E ++ digits F) := by
  rw [removeSeparators, strBitsOf, List.eraseIdx_cons_succ, List.eraseIdx_cons_succ, List.eraseIdx_cons_succ,
    List.eraseIdx_append_of_length_le (digits_length E).le, digits_length, Nat.sub_self, List.eraseIdx_cons_zero,
    List.eraseIdx_cons_zero]

/-- Cleanup leaves the same digits where the separator is one that it deletes (R58, R121). -/
theorem clean_strBitsOf (hsep : sep = ' ' ∨ sep = '_') :
    clean (strBitsOf f sep S E F) = digit S :: (digits E ++ digits F) := by
  rw [strBitsOf, clean_digit_cons, clean_separator_cons hsep, clean_append, clean_separator_cons hsep, clean_digits, clean_digits]

end Groups

/-- The whole next state of STRBITS (R120). -/
theorem exec_strbits (s : State) :
    exec .strbits s =
      .next { s with
        view := { s.view with strBits := strBitsOf s.fmt s.sep s.out.signBit s.out.exponent s.out.fraction }
        reply := .results } :=
  rfl

/-- Settles O45: the text written is `strBitsOf` of the three field ports, whose length and places are the lemmas above. -/
theorem strbitsGroupsTheDigits : Obligations.StrbitsGroupsTheDigits := by
  intro s
  refine ⟨_, exec_strbits s, strBitsOf_length .., rfl, rfl, strBitsOf_getElem?_add _ _ _ _ _ 0, ?exponentDigits, ?fractionDigits⟩
  case exponentDigits => exact fun _ hi => strBitsOf_exponent s.fmt s.sep _ _ _ hi
  case fractionDigits => exact fun _ hj => strBitsOf_fraction s.fmt s.sep _ _ _ hj

/-! ## The round trip -/

/-- The bits of the word's three fields, most significant first, are the bits of the word (R50). -/
theorem digits_fields (f : FormatSpec) (w : BitVec f.N) :
    digit (fieldS f w) :: (digits (fieldE f w) ++ digits (fieldF f w)) = digits w := by
  have hp := f.p_two
  have hrange : List.range f.N = 0 :: ((List.range f.k).map (· + 1) ++ (List.range f.FW).map (f.k + · + 1)) := by
    have hN : f.N = f.k + f.FW + 1 := by
      simp only [FormatSpec.FW, FormatSpec.N]
      omega
    rw [hN, List.range_succ_eq_map, List.range_add, List.map_append, List.map_map]
    rfl
  rw [digits, digits, digits, hrange, List.map_cons, List.map_append, List.map_map, List.map_map]
  congr 2
  -- exponent, fraction
  · refine List.map_congr_left fun i hi => ?_
    have hi := List.mem_range.mp hi
    have hplace : f.FW + (f.k - 1 - i) = f.N - 1 - (i + 1) := by
      simp only [FormatSpec.FW, FormatSpec.N]
      omega
    rw [fieldE_getLsbD f w (by omega), hplace, Function.comp_apply]
  · refine List.map_congr_left fun j hj => ?_
    have hj := List.mem_range.mp hj
    have hplace : f.FW - 1 - j = f.N - 1 - (f.k + j + 1) := by
      simp only [FormatSpec.FW, FormatSpec.N]
      omega
    rw [fieldF_getLsbD f w (by omega), hplace, Function.comp_apply]

/-- An accepted text is the digits of its word (R51, R73). -/
theorem eq_digits_of_loadText {f : FormatSpec} {t : Text} {w : BitVec f.N} (h : loadText f t = .ok w) : t = digits w := by
  have haccepted : Accepted f t := (accepted_iff_loadText f t).mpr ⟨w, h⟩
  obtain ⟨w', hload, hbits⟩ := loadText_of_accepted haccepted
  obtain rfl : w = w' := Except.ok.inj (h.symm.trans hload)
  obtain ⟨hlen, hdigits⟩ := haccepted
  refine List.ext_getElem (hlen.trans (digits_length w).symm) fun i hi hi' => ?_
  have hplace : (digits w)[i] = digit (decide (t[i]? = some '1')) := by
    rw [← hbits i (hlen ▸ hi)]
    exact (List.getElem_eq_iff hi').mpr (digits_getElem? w (hlen ▸ hi))
  rw [hplace, List.getElem?_eq_getElem hi]
  rcases hdigits _ (List.getElem_mem hi) with hc | hc <;> rw [hc] <;> rfl

/-- What the caller reads as `str_bits` of a word (R120). -/
theorem decodeView_strBits (f : FormatSpec) (sep : Char) (w : BitVec f.N) :
    (decodeView f sep w).strBits = strBitsOf f sep (fieldS f w) (fieldE f w) (fieldF f w) :=
  rfl

/-- Settles O46: both ways of leaving the separators out give the digits of the word, which are the accepted text. -/
theorem strbitsReproducesTheText : Obligations.StrbitsReproducesTheText := by
  intro f sep t w h
  have hfields := (digits_fields f w).trans (eq_digits_of_loadText h).symm
  rw [decodeView_strBits]
  constructor
  · rw [removeSeparators_strBitsOf, hfields]
  · intro hsep
    rw [clean_strBitsOf _ _ _ _ _ hsep, hfields, h]

/-! ## The summary -/

/-- The whole next state of SUMMARY (R123). -/
theorem exec_summary (s : State) :
    exec .summary s = .next { s with view := { s.view with summary := s.view.summarise s.fmt }, reply := .results } :=
  rfl

/-- Settles O47: the entries are those of `View.summarise`, the last one `significandEntry` of the reading. -/
theorem summaryHasTheTenEntries : Obligations.SummaryHasTheTenEntries := by
  intro s
  refine ⟨significandEntry s.view.significand, exec_summary s, ?sentinel, ?rational⟩
  case sentinel => intro h; rw [h, significandEntry]
  case rational => intro q h; rw [h, significandEntry]

end Sys2Proof.Proofs.Presentation
end

section
/-! Proofs of the exceptions' statements: FormatError is the answer to a text that is not accepted, whatever the bias (R130, R133). -/

namespace Sys2Proof.Proofs.Exceptions

open Sys2Proof Sys2Proof.Machine

/-- `Load` refuses exactly the texts that are not accepted (R70 to R72). -/
theorem loadText_error_iff_not_accepted (f : FormatSpec) (t : Text) :
    loadText f t = .error .formatError ↔ ¬ Accepted f t := by
  rw [accepted_iff_loadText]
  cases h : loadText f t with
  | ok w => simp
  | error e => simp [loadText_error h]

/-- Of the FormatSpec, only `k` and `p` say which texts are accepted (R55). -/
theorem accepted_congr {f g : FormatSpec} (hk : f.k = g.k) (hp : f.p = g.p) (t : Text) : Accepted f t ↔ Accepted g t := by
  have hN : f.N = g.N := congrArg₂ (· + ·) hk hp
  rw [Accepted, Accepted, hN]

/-- Settles O11: to be refused is not to be accepted, which the bias has no part in. -/
theorem refusalFailsIdenticallyOnEveryRetry : Obligations.RefusalFailsIdenticallyOnEveryRetry := by
  refine ⟨fun f g t hk hp => ?refusedAlike, fun f t haccepted e herror => ?neverRefused⟩
  case refusedAlike => rw [loadText_error_iff_not_accepted, loadText_error_iff_not_accepted, accepted_congr hk hp]
  case neverRefused =>
    obtain rfl := loadText_error herror
    exact (loadText_error_iff_not_accepted f t).mp herror haccepted

end Sys2Proof.Proofs.Exceptions
end

section
/-! Proofs of the round trip's statements: decoding the encoding of a class instruction gives it back (R50, R53), the match and mask pairs
select the Classifier's kind (R53), and fields of no word are refused (log entry 6). -/

namespace Sys2Proof.Proofs.RoundTrip

open Sys2Proof Sys2Proof.Machine
open Sys2Proof.Laws.WordFits (signUnit_eq fields_lt)
open Sys2Proof.Proofs.Encoding (fields_sum classKind_decodeWord)

/-! ## A word by its three fields -/

/-- `uint` of the word `{S, E, F}` (R50). -/
def fieldsNumber (f : FormatSpec) (S : Bool) (E F : Nat) : Nat := S.toNat * signUnit f + E * fractionUnit f + F

/-- The three fields are read off the number they make (R50). -/
theorem fieldsNumber_inj {f : FormatSpec} {S S' : Bool} {E E' F F' : Nat} (hE : E < 2 ^ f.k) (hE' : E' < 2 ^ f.k)
    (hF : F < 2 ^ f.FW) (hF' : F' < 2 ^ f.FW) (h : fieldsNumber f S E F = fieldsNumber f S' E' F') :
    S = S' ∧ E = E' ∧ F = F' := by
  have hupper : ∀ (S : Bool) (E : Nat), S.toNat * signUnit f + E * fractionUnit f = (S.toNat * 2 ^ f.k + E) * 2 ^ f.FW := by
    intro S E
    rw [signUnit_eq, fractionUnit]
    ring
  rw [fieldsNumber, fieldsNumber, hupper, hupper] at h
  obtain ⟨hSE, hFF'⟩ := (fields_unique f hF hF').mp h
  cases S <;> cases S' <;> simp at hSE ⊢ <;> omega

/-- A word whose number is `{S, E, F}` has these fields (R50). -/
theorem fields_of_toNat {f : FormatSpec} {w : BitVec f.N} {S : Bool} {E F : Nat} (hE : E < 2 ^ f.k) (hF : F < 2 ^ f.FW)
    (h : w.toNat = fieldsNumber f S E F) : fieldS f w = S ∧ (fieldE f w).toNat = E ∧ (fieldF f w).toNat = F :=
  fieldsNumber_inj (fieldE f w).isLt hE (fieldF f w).isLt hF ((fields_sum f w).trans h)

/-! ## A class instruction by its three fields -/

/-- The class instruction of the word `{S, E, F}` (R53). -/
def classOfFields (f : FormatSpec) (S : Bool) (E F : Nat) : Instr :=
  if E = 2 ^ f.k - 1 then (if F = 0 then .infinity S else .nan S F)
  else if E = 0 then (if F = 0 then .zero S else .subnormal S F)
  else .normal S E F

/-- A fraction field's number that is in its range and not zero (R80, R82). -/
theorem fractionNonzero_iff {f : FormatSpec} {F : Nat} : fractionNonzero f F = true ↔ F ≠ 0 ∧ F < 2 ^ f.FW := by
  rw [fractionNonzero, fractionFits, Bool.and_eq_true, decide_eq_true_iff, decide_eq_true_iff]

/-- The side condition of the row normal (R84). -/
theorem wellFormed_normal_iff {f : FormatSpec} {S : Bool} {E F : Nat} :
    (Instr.normal S E F).wellFormed f = true ↔ (1 ≤ E ∧ E + 2 ≤ 2 ^ f.k) ∧ F < 2 ^ f.FW := by
  simp only [Instr.wellFormed, exponentNormal, fractionFits, Bool.and_eq_true, decide_eq_true_iff]

/-- A well-formed class instruction is the one of three fields in their ranges, whose number it writes. -/
theorem exists_fields_of_wellFormed {f : FormatSpec} {i : Instr} {n : Nat} (hwf : i.wellFormed f = true)
    (hn : wordNumber f i = some n) :
    ∃ S E F, E < 2 ^ f.k ∧ F < 2 ^ f.FW ∧ n = fieldsNumber f S E F ∧ classOfFields f S E F = i := by
  have hk := two_le_two_pow_k f
  have hU := Nat.two_pow_pos f.FW
  have hones : 2 ^ f.k - 1 < 2 ^ f.k := by omega
  have hends : 0 ≠ 2 ^ f.k - 1 := by omega
  cases i with
  | zero S =>
    cases hn
    exact ⟨S, 0, 0, by omega, hU, by simp [fieldsNumber], by simp [classOfFields, hends]⟩
  | infinity S =>
    cases hn
    exact ⟨S, 2 ^ f.k - 1, 0, hones, hU, rfl, by simp [classOfFields]⟩
  | subnormal S F =>
    obtain ⟨hF, hlt⟩ := fractionNonzero_iff.mp hwf
    cases hn
    exact ⟨S, 0, F, by omega, hlt, by simp [fieldsNumber], by simp [classOfFields, hends, hF]⟩
  | nan S F =>
    obtain ⟨hF, hlt⟩ := fractionNonzero_iff.mp hwf
    cases hn
    exact ⟨S, 2 ^ f.k - 1, F, hones, hlt, rfl, by simp [classOfFields, hF]⟩
  | normal S E F =>
    obtain ⟨⟨hlow, hhigh⟩, hlt⟩ := wellFormed_normal_iff.mp hwf
    cases hn
    exact ⟨S, E, F, by omega, hlt, rfl, by rw [classOfFields, if_neg (by omega), if_neg (by omega)]⟩
  | _ => cases hn

/-- Settles O3: the instruction's number is `{S, E, F}` for fields in their ranges, so it fits the word, and the fields and the class are read
off it. -/
theorem decodeOfEncodeIsTheInstruction : Obligations.DecodeOfEncodeIsTheInstruction := by
  intro f i n hwf hn
  obtain ⟨S, E, F, hE, hF, hnumber, hclass⟩ := exists_fields_of_wellFormed hwf hn
  have hfits : n < 2 ^ f.N := hnumber ▸ fields_lt f S hE hF
  have hw : (BitVec.ofNat f.N n).toNat = n := by rw [BitVec.toNat_ofNat, Nat.mod_eq_of_lt hfits]
  obtain ⟨hS', hE', hF'⟩ := fields_of_toNat hE hF (hw.trans hnumber)
  refine ⟨BitVec.ofNat f.N n, encode_eq_some.mpr ⟨hwf, n, hn, rfl⟩, hw, ?_⟩
  rw [decodeWord_eq, hS', hE', hF']
  exact hclass

/-- An instruction with an encoding is the one its word decodes to. -/
theorem decodeWord_of_encode {f : FormatSpec} {i : Instr} {w : BitVec f.N} (h : encode f i = some w) : decodeWord f w = i := by
  obtain ⟨hwf, n, hn, -⟩ := encode_eq_some.mp h
  obtain ⟨w', hw', -, hdecode⟩ := decodeOfEncodeIsTheInstruction f i n hwf hn
  obtain rfl : w = w' := Option.some.inj (h.symm.trans hw')
  exact hdecode

/-! ## The kind of a word by its fields -/

/-- The condition that each kind puts on the two fields as numbers (R80 to R84). -/
def FieldsOfKind (f : FormatSpec) (E F : Nat) : Kind → Prop
  | .zero => E = 0 ∧ F = 0
  | .subnormal => E = 0 ∧ F ≠ 0
  | .normal => 1 ≤ E ∧ E + 2 ≤ 2 ^ f.k
  | .infinity => E = 2 ^ f.k - 1 ∧ F = 0
  | .nan => E = 2 ^ f.k - 1 ∧ F ≠ 0

/-- A word is of a kind exactly when its fields meet the kind's condition (R80 to R84). -/
theorem kindOfWord_eq_iff (f : FormatSpec) (w : BitVec f.N) (k : Kind) :
    kindOfWord f w = k ↔ FieldsOfKind f (fieldE f w).toNat (fieldF f w).toNat k := by
  have hk := two_le_two_pow_k f
  have hE := (fieldE f w).isLt
  rw [kindOfWord_eq]
  split_ifs <;> cases k <;> simp [FieldsOfKind] <;> omega

/-- Settles O5: the kinds agree by `classKind_decodeWord`, and for `k = 1` no exponent field lies between its two ends. -/
theorem maskedPatternsSelectTheClassifiersKind : Obligations.MaskedPatternsSelectTheClassifiersKind := by
  intro f w
  refine ⟨classKind_decodeWord f w, fun hk hnormal => ?_⟩
  obtain ⟨hlow, hhigh⟩ := (kindOfWord_eq_iff f w .normal).mp hnormal
  have hpow : 2 ^ f.k = 2 := by rw [hk, Nat.pow_one]
  omega

/-! ## Fields of no word -/

/-- A row whose instruction is not well formed refuses it (log entry 6). -/
theorem deliverClass_of_not_wellFormed {i : Instr} {s : State} (out : BitVec s.fmt.N → Outputs s.fmt) (view : View)
    (h : ¬ i.wellFormed s.fmt = true) : deliverClass i s out view = .refused .noWordOfItsClass := by
  rw [deliverClass, encode, if_neg h]

/-- Settles O23: the fields named are exactly those that the rows' side conditions leave out. -/
theorem fieldsOfNoWordAreRefused : Obligations.FieldsOfNoWordAreRefused := by
  intro S E F s
  constructor
  · intro (hF : F = 0 ∨ 2 ^ s.fmt.FW ≤ F)
    have hnot : ¬ fractionNonzero s.fmt F = true := by rw [fractionNonzero_iff]; omega
    exact ⟨deliverClass_of_not_wellFormed _ _ hnot, deliverClass_of_not_wellFormed _ _ hnot⟩
  · intro (hEF : E = 0 ∨ 2 ^ s.fmt.k ≤ E + 1 ∨ 2 ^ s.fmt.FW ≤ F)
    have hnot : ¬ (Instr.normal S E F).wellFormed s.fmt = true := by rw [wellFormed_normal_iff]; omega
    exact deliverClass_of_not_wellFormed _ _ hnot

end Sys2Proof.Proofs.RoundTrip
end

section
/-! Proofs of the driven word's statements: a word of a class leaves what DECODE in one piece gives (R76), and the state taken for reset has
the outputs and readings of the word on its port (R35). -/

namespace Sys2Proof.Proofs.DrivenWord

open Sys2Proof Sys2Proof.Machine
open Sys2Proof.Proofs.Encoding (everyWordIsTheEncodingOfItsClass)
open Sys2Proof.Proofs.RoundTrip (decodeWord_of_encode kindOfWord_eq_iff FieldsOfKind)

/-! ## What a word leaves, by its kind and its fields -/

/-- The output ports of a word `w` of a kind with the fields `S`, `E`, `F` (R27 to R32). -/
def outputsOfFields (f : FormatSpec) (w : BitVec f.N) (k : Kind) (S : Bool) (E : BitVec f.k) (F : BitVec f.FW) : Outputs f :=
  { signBit := S, exponent := E, fraction := F, kind := kindCode k
    isZero := decide (k = .zero), isSubnormal := decide (k = .subnormal), isNormal := decide (k = .normal)
    isInfinity := decide (k = .infinity), isNan := decide (k = .nan), signNeg := S
    sig := sigPort f w (some k) F, sigValid := sigValidPort (some k)
    texp := texpPort f w (trueExponentOf f (some k) E), valNeg := S && !decide (k = .nan) }

/-- The caller's readings of three fields of a kind (R90 to R94, R100 to R105, R120, R123). -/
def viewOfFields (f : FormatSpec) (sep : Char) (k : Kind) (S : Bool) (E : BitVec f.k) (F : BitVec f.FW) : View :=
  View.withSummary f
    { kind := k, sign := signOf S, exponent := E.toNat, fraction := fractionOf f F, significand := significandOf f (some k) F
      trueExponent := trueExponentOf f (some k) E, value := valueOf f k S E F, strBits := strBitsOf f sep S E F, summary := [] }

/-- The class instruction of a kind's fields (R53). -/
def classOfKind (k : Kind) (S : Bool) (E F : Nat) : Instr :=
  match k with
  | .zero => .zero S
  | .subnormal => .subnormal S F
  | .normal => .normal S E F
  | .infinity => .infinity S
  | .nan => .nan S F

theorem decodeOutputs_eq_outputsOfFields (f : FormatSpec) (w : BitVec f.N) :
    decodeOutputs f w = outputsOfFields f w (kindOfWord f w) (fieldS f w) (fieldE f w) (fieldF f w) :=
  decodeOutputs_eq f w

theorem decodeView_eq_viewOfFields (f : FormatSpec) (sep : Char) (w : BitVec f.N) :
    decodeView f sep w = viewOfFields f sep (kindOfWord f w) (fieldS f w) (fieldE f w) (fieldF f w) :=
  rfl

theorem decodeWord_eq_classOfKind (f : FormatSpec) (w : BitVec f.N) :
    decodeWord f w = classOfKind (kindOfWord f w) (fieldS f w) (fieldE f w).toNat (fieldF f w).toNat := by
  rw [decodeWord_eq, kindOfWord_eq]
  split_ifs <;> rfl

/-! ## A word of a class leaves what driving it leaves -/

/-- A row with an encoding delivers its word (R76). -/
theorem deliverClass_of_encode {i : Instr} {s : State} {w : BitVec s.fmt.N} {out : BitVec s.fmt.N → Outputs s.fmt}
    {view view' : View} {out' : Outputs s.fmt} (hencode : encode s.fmt i = some w) (hout : out w = out') (hview : view = view') :
    deliverClass i s out view = .next (s.deliver w out' view') := by
  rw [deliverClass, hencode, ← hout, ← hview]

theorem fractionOf_zero (f : FormatSpec) : fractionOf f 0#f.FW = 0 := by
  rw [fractionOf_eq_div, BitVec.toNat_zero, Nat.cast_zero, zero_div]

/-- The rows of the opcode table: a class instruction delivers its word with the ports and readings of its kind and fields. -/
theorem exec_classOfKind {s : State} {w : BitVec s.fmt.N} {k : Kind} {S : Bool} {E : BitVec s.fmt.k} {F : BitVec s.fmt.FW}
    (hfields : FieldsOfKind s.fmt E.toNat F.toNat k) (hencode : encode s.fmt (classOfKind k S E.toNat F.toNat) = some w) :
    exec (classOfKind k S E.toNat F.toNat) s =
      .next (s.deliver w (outputsOfFields s.fmt w k S E F) (viewOfFields s.fmt s.sep k S E F)) := by
  have hzeros : ∀ {n} {v : BitVec n}, v.toNat = 0 → v = 0#n := fun h => BitVec.eq_of_toNat_eq (h.trans BitVec.toNat_zero.symm)
  have hones : E.toNat = 2 ^ s.fmt.k - 1 → E = BitVec.allOnes s.fmt.k := fun h =>
    BitVec.eq_of_toNat_eq (h.trans BitVec.toNat_allOnes.symm)
  cases k
  case' zero =>
    obtain ⟨hE, hF⟩ := hfields
    obtain rfl := hzeros hE
    obtain rfl := hzeros hF
    rw [classOfKind, exec, execZero]
    refine deliverClass_of_encode hencode ?_ ?_
  case' infinity =>
    obtain ⟨hE, hF⟩ := hfields
    obtain rfl := hones hE
    obtain rfl := hzeros hF
    rw [classOfKind, exec, execInfinity]
    refine deliverClass_of_encode hencode ?_ ?_
  case' subnormal =>
    obtain rfl := hzeros hfields.1
    rw [classOfKind, exec, execSubnormal]
    refine deliverClass_of_encode hencode ?_ ?_
  case' nan =>
    obtain rfl := hones hfields.1
    rw [classOfKind, exec, execNan]
    refine deliverClass_of_encode hencode ?_ ?_
  case' normal =>
    rw [classOfKind, exec, execNormal]
    refine deliverClass_of_encode hencode ?_ ?_
  -- for each kind: the row's ports, and the row's readings
  all_goals
    simp [outputsOfFields, viewOfFields, kindCode, sigPort, sigValidPort, texpPort, trueExponentOf, significandOf, valueOf,
      fractionOf_zero]

/-- Evaluating the class of a word drives the word (R76). -/
theorem exec_decodeWord (s : State) (w : BitVec s.fmt.N) : exec (decodeWord s.fmt w) s = .next (s.drive w) := by
  obtain ⟨-, -, hencode⟩ := everyWordIsTheEncodingOfItsClass s.fmt w
  rw [decodeWord_eq_classOfKind] at hencode ⊢
  rw [exec_classOfKind ((kindOfWord_eq_iff s.fmt w _).mp rfl) hencode, State.drive, decodeOutputs_eq_outputsOfFields,
    decodeView_eq_viewOfFields]

/-- Settles O24: an instruction with an encoding is the class of its word, so `exec_decodeWord` speaks of it. -/
theorem tableRowsAgreeWithTheDecodeListing : Obligations.TableRowsAgreeWithTheDecodeListing := by
  intro s i w hencode
  rw [← decodeWord_of_encode hencode]
  exact exec_decodeWord s w

/-! ## The state taken for reset -/

/-- The word of zeros is the positive zero (R83). -/
theorem fields_zero (f : FormatSpec) :
    fieldS f 0#f.N = false ∧ fieldE f 0#f.N = 0#f.k ∧ fieldF f 0#f.N = 0#f.FW ∧ kindOfWord f 0#f.N = .zero := by
  have hE : fieldE f 0#f.N = 0#f.k := BitVec.extractLsb'_zero
  have hF : fieldF f 0#f.N = 0#f.FW := BitVec.extractLsb'_zero
  refine ⟨BitVec.getLsbD_zero, hE, hF, (kindOfWord_eq_iff f _ .zero).mpr ?_⟩
  rw [hE, hF]
  exact ⟨BitVec.toNat_zero, BitVec.toNat_zero⟩

theorem digits_zero (n : Nat) : digits 0#n = List.replicate n '0' := by
  simp [digits, digit]

/-- The ports of the positive zero word (R83, R101). -/
theorem decodeOutputs_zero (f : FormatSpec) : decodeOutputs f 0#f.N = Outputs.ofZeroWord f := by
  obtain ⟨hS, hE, hF, hk⟩ := fields_zero f
  rw [decodeOutputs_eq_outputsOfFields, hk, hE, hF, hS]
  rfl

/-- The readings of the positive zero word (R83, R101, R120). -/
theorem decodeView_zero (f : FormatSpec) (sep : Char) : decodeView f sep 0#f.N = View.ofZeroWord f sep := by
  obtain ⟨hS, hE, hF, hk⟩ := fields_zero f
  rw [decodeView_eq_viewOfFields, hk, hE, hF, hS]
  simp [View.ofZeroWord, zeroWordText, viewOfFields, View.withSummary, View.summarise, strBitsOf, digit, digits_zero, signOf,
    fractionOf_zero, significandOf, significandEntry, trueExponentOf, valueOf]

/-- An FPCD just built has the outputs and readings of the word on its port (R35). -/
theorem built_settled (f : FormatSpec) (sep : Char) : (State.built f sep).Settled :=
  ⟨(decodeOutputs_zero f).symm, (decodeView_zero f sep).symm⟩

/-- Settles O49: the state taken for reset is an FPCD just built. -/
theorem resetIsSettled : Obligations.ResetIsSettled :=
  built_settled FormatSpec.float32 Config.defaultSep

end Sys2Proof.Proofs.DrivenWord
end

section
/-! Proofs of the step's statements: what a step does with each form of input (R26, R70 to R76, R151), what a refused text leaves (R132,
R134), and what a step leaves alone (R13, R24, R34). -/

namespace Sys2Proof.Proofs.Steps

open Sys2Proof Sys2Proof.Machine
open Sys2Proof.Proofs.Exceptions (loadText_error_iff_not_accepted)
open Sys2Proof.Proofs.DrivenWord (exec_decodeWord)

/-! ## One step, by the form of its input -/

/-- Settles O1: `fetch` reads the first input of the list. -/
theorem stepRunsTheDecodedInstruction : Obligations.StepRunsTheDecodedInstruction := by
  intro s
  refine ⟨fun h => ?_, fun t rest h => ?_, fun v rest h => ?_, fun op rest h => ?_⟩ <;> rw [step, State.fetch, h]

/-- With no input left the word on the port is evaluated (R26, R151). -/
theorem step_of_no_input {s : State} (h : s.inputs = []) : step s = .next s.settle := by
  obtain ⟨hstep, -, -, -⟩ := stepRunsTheDecodedInstruction s
  rw [hstep h, exec_decodeWord, State.settle]

/-- A driven word is decoded whole (R76). -/
theorem step_of_word {s : State} {v : BitVec s.fmt.N} {rest : List (Stimulus s.fmt)} (h : s.inputs = .word v :: rest) :
    step s = .next ({ s with inputs := rest }.drive v) := by
  obtain ⟨-, -, hstep, -⟩ := stepRunsTheDecodedInstruction s
  rw [hstep v rest h]
  exact exec_decodeWord { s with inputs := rest } v

/-- An accepted text drives its word (R70, R76). -/
theorem step_of_accepted_text {s : State} {t : Text} {w : BitVec s.fmt.N} {rest : List (Stimulus s.fmt)}
    (h : s.inputs = .text t :: rest) (hload : loadText s.fmt t = .ok w) :
    step s = .next ({ s with inputs := rest }.drive w) := by
  obtain ⟨-, hstep, -, -⟩ := stepRunsTheDecodedInstruction s
  rw [hstep t rest h, exec, execLoad, hload]

/-- A refused text takes FormatError (R132). -/
theorem step_of_refused_text {s : State} {t : Text} {rest : List (Stimulus s.fmt)}
    (h : s.inputs = .text t :: rest) (hload : loadText s.fmt t = .error .formatError) :
    step s = .next ({ s with inputs := rest }.raise .formatError) := by
  obtain ⟨-, hstep, -, -⟩ := stepRunsTheDecodedInstruction s
  rw [hstep t rest h, exec, execLoad, hload]

/-- A requested operation runs on the word that stands on the port. -/
theorem step_of_request {s : State} {op : Operation} {rest : List (Stimulus s.fmt)} (h : s.inputs = .request op :: rest) :
    step s = exec op.instr { s with inputs := rest } := by
  obtain ⟨-, -, -, hstep⟩ := stepRunsTheDecodedInstruction s
  exact hstep op rest h

/-- What a step can do: drive a word with the inputs left, take FormatError, or run a requested operation. -/
theorem step_forms (s : State) :
    (∃ w, step s = .next ({ s with inputs := s.inputs.tail }.drive w)) ∨
    step s = .next ({ s with inputs := s.inputs.tail }.raise .formatError) ∨
    (∃ op : Operation, step s = exec op.instr { s with inputs := s.inputs.tail }) := by
  cases hin : s.inputs with
  | nil =>
    refine .inl ⟨s.w, ?_⟩
    rw [step_of_no_input hin, List.tail_nil, ← hin, State.settle]
  | cons x rest =>
    rw [List.tail_cons]
    cases x with
    | word v => exact .inl ⟨v, step_of_word hin⟩
    | request op => exact .inr (.inr ⟨op, step_of_request hin⟩)
    | text t =>
      cases hload : loadText s.fmt t with
      | ok w => exact .inl ⟨w, step_of_accepted_text hin hload⟩
      | error e =>
        obtain rfl := loadText_error hload
        exact .inr (.inl (step_of_refused_text hin hload))

/-! ## LOAD -/

/-- A text that is not accepted takes FormatError (R71, R72, R132). -/
theorem exec_load_of_not_accepted {s : State} {t : Text} (h : ¬ Accepted s.fmt t) :
    exec (.load t) s = .next { s with reply := .error .formatError } := by
  rw [exec, execLoad, (loadText_error_iff_not_accepted s.fmt t).mpr h]
  rfl

/-- Settles O9: such a text is not accepted. -/
theorem badTextTakesFormatError : Obligations.BadTextTakesFormatError := by
  intro s t hbad
  have hnot : ¬ Accepted s.fmt t := by
    rintro ⟨hlen, hdigits⟩
    rcases hbad with hlen' | ⟨c, hc, h0, h1⟩
    · exact hlen' hlen
    · exact (hdigits c hc).elim h0 h1
  exact ⟨(loadText_error_iff_not_accepted s.fmt t).mpr hnot, exec_load_of_not_accepted hnot⟩

/-- Settles O12: both steps drive the text's word. -/
theorem textAndWordEntryPointsAgree : Obligations.TextAndWordEntryPointsAgree := by
  intro s t w rest hload
  refine ⟨?_, by rw [decodeString, hload], by rw [readString, hload]⟩
  rw [step_of_accepted_text (s := { s with inputs := .text t :: rest }) rfl hload,
    step_of_word (s := { s with inputs := .word w :: rest }) rfl]

/-- No requested operation reads the caller's last reply. -/
theorem exec_operation_reply (op : Operation) (s : State) (r : Reply) : exec op.instr { s with reply := r } = exec op.instr s := by
  cases op <;> rfl

/-- The last reply has no part in the answer to an input (R134). -/
theorem step_reply (s : State) (x : Stimulus s.fmt) (rest : List (Stimulus s.fmt)) (r : Reply) :
    step { s with inputs := x :: rest, reply := r } = step { s with inputs := x :: rest } := by
  cases x with
  | word v =>
    rw [step_of_word (s := { s with inputs := .word v :: rest, reply := r }) rfl,
      step_of_word (s := { s with inputs := .word v :: rest }) rfl]
    rfl
  | request op => exact exec_operation_reply op { s with inputs := rest } r
  | text t =>
    cases hload : loadText s.fmt t with
    | ok w =>
      rw [step_of_accepted_text (s := { s with inputs := .text t :: rest, reply := r }) rfl hload,
        step_of_accepted_text (s := { s with inputs := .text t :: rest }) rfl hload]
      rfl
    | error e =>
      obtain rfl := loadText_error hload
      rw [step_of_refused_text (s := { s with inputs := .text t :: rest, reply := r }) rfl hload,
        step_of_refused_text (s := { s with inputs := .text t :: rest }) rfl hload]
      rfl

/-- Settles O10: the refused text leaves the reply alone behind, which `step_reply` says the next step does not read. -/
theorem refusedTextLeavesNoTrace : Obligations.RefusedTextLeavesNoTrace := by
  intro s t x rest hnot hin
  have hrefused := (loadText_error_iff_not_accepted s.fmt t).mpr hnot
  exact ⟨_, step_of_refused_text hin hrefused, rfl, step_reply s x rest _⟩

/-! ## What a step leaves alone -/

/-- A step that answers leaves the configuration alone and takes one input off the list. -/
theorem step_frame {s t : State} (h : step s = .next t) :
    ∃ w out view reply, t = { s with w := w, out := out, view := view, reply := reply, inputs := s.inputs.tail } := by
  rcases step_forms s with ⟨w, hstep⟩ | hstep | ⟨op, hstep⟩ <;> rw [hstep] at h
  · cases h; exact ⟨_, _, _, _, rfl⟩
  · cases h; exact ⟨_, _, _, _, rfl⟩
  · obtain ⟨out, view, rfl⟩ := exec_operation_frame op _ t h
    exact ⟨_, _, _, _, rfl⟩

/-- Settles O53: by `step_frame`. -/
theorem configurationNeverChanges : Obligations.ConfigurationNeverChanges := by
  intro s t h
  obtain ⟨w, out, view, reply, rfl⟩ := step_frame h
  exact ⟨⟨rfl, rfl⟩, rfl, rfl⟩

/-- Settles O54: all these steps drive a word, which writes every output, reading and reply. -/
theorem answersDoNotDependOnEarlierInputs : Obligations.AnswersDoNotDependOnEarlierInputs := by
  intro s out view reply
  refine ⟨fun v w' rest => ?word, fun t w' rest haccepted => ?text, ?noInput⟩
  case word =>
    rw [step_of_word (s := { s with inputs := .word v :: rest }) rfl,
      step_of_word (s := { s with inputs := .word v :: rest, w := w', out := out, view := view, reply := reply }) rfl]
    rfl
  case text =>
    obtain ⟨w, hload⟩ := (accepted_iff_loadText s.fmt t).mp haccepted
    rw [step_of_accepted_text (s := { s with inputs := .text t :: rest }) rfl hload,
      step_of_accepted_text (s := { s with inputs := .text t :: rest, w := w', out := out, view := view, reply := reply }) rfl hload]
    rfl
  case noInput =>
    rw [step_of_no_input (s := { s with inputs := [] }) rfl,
      step_of_no_input (s := { s with inputs := [], out := out, view := view, reply := reply }) rfl]
    rfl

end Sys2Proof.Proofs.Steps
end

section
/-! Proofs of the operations' statements: in a settled state each repeats what the caller has, in the document's order they settle the block
(R22, R34, R156), every step keeps a settled state and none stops there (R46, R131), and blocks side by side share nothing (R140). -/

namespace Sys2Proof.Proofs.Settling

open Sys2Proof Sys2Proof.Machine
open Sys2Proof.Proofs.Partition (exec_partition)
open Sys2Proof.Proofs.Classify (exec_classify decodeOutputs_kind)
open Sys2Proof.Proofs.FieldValues (exec_sign exec_exponent exec_fraction)
open Sys2Proof.Proofs.Presentation (exec_strbits exec_summary)
open Sys2Proof.Proofs.Resolver (and_not_nan)
open Sys2Proof.Proofs.DrivenWord (outputsOfFields viewOfFields decodeOutputs_eq_outputsOfFields decodeView_eq_viewOfFields
  resetIsSettled)
open Sys2Proof.Proofs.Steps (step_forms step_of_no_input exec_operation_reply)

/-! ## The operations that read the code on the port -/

/-- The whole next state of SIGNIFICAND (R93, R94). -/
theorem exec_significand (s : State) :
    exec .significand s =
      .next { s with
        out := { s.out with
          sig := sigPort s.fmt s.w (kindOfCode s.out.kind) s.out.fraction, sigValid := sigValidPort (kindOfCode s.out.kind) }
        view := { s.view with significand := significandOf s.fmt (kindOfCode s.out.kind) s.out.fraction }
        reply := .results } :=
  rfl

/-- The whole next state of TEXP (R100). -/
theorem exec_texp (s : State) :
    exec .texp s =
      .next { s with
        out := { s.out with
          texp := texpPort s.fmt s.w (trueExponentOf s.fmt (kindOfCode s.out.kind) s.out.exponent) }
        view := { s.view with trueExponent := trueExponentOf s.fmt (kindOfCode s.out.kind) s.out.exponent }
        reply := .results } :=
  rfl

/-- A case of the Value Resolver on a port that names a kind (R101 to R105). -/
theorem valueCase_of_kindCode {s : State} {k : Kind} (h : s.out.kind = kindCode k) (k' : Kind) (v : Value) (neg : Bool) :
    valueCase k' v neg s =
      if k = k' then .next { s.answer with view := { s.view with value := v }, out := { s.out with valNeg := neg } }
      else .next s.answer := by
  rw [valueCase, h, kindOfCode_kindCode]

/-! ## The operations on an evaluated word -/

/-- A word evaluated on the port, by its kind and its fields. -/
theorem settle_eq (s : State) : s.settle =
    s.deliver s.w
      (outputsOfFields s.fmt s.w (kindOfWord s.fmt s.w) (fieldS s.fmt s.w) (fieldE s.fmt s.w) (fieldF s.fmt s.w))
      (viewOfFields s.fmt s.sep (kindOfWord s.fmt s.w) (fieldS s.fmt s.w) (fieldE s.fmt s.w) (fieldF s.fmt s.w)) := by
  rw [State.settle, State.drive, decodeOutputs_eq_outputsOfFields, decodeView_eq_viewOfFields]

/-- The code on the port of an evaluated word is the one of its kind (R88). -/
theorem settle_kind (s : State) : s.settle.out.kind = kindCode (kindOfWord s.fmt s.w) := decodeOutputs_kind s.fmt s.w

/-- A case of the Value Resolver that follows its kind's rule gives an evaluated word nothing that does not stand there already. -/
theorem valueCase_settle {s : State} (k : Kind) {v : Value} {neg : Bool}
    (hv : v = valueOf s.fmt k (fieldS s.fmt s.w) (fieldE s.fmt s.w) (fieldF s.fmt s.w))
    (hneg : neg = (fieldS s.fmt s.w && !decide (k = .nan))) : valueCase k v neg s.settle = .next s.settle := by
  rw [valueCase_of_kindCode (settle_kind s), hv, hneg]
  split_ifs with hk
  · rw [← hk, settle_eq]
    rfl
  · rfl

/-- Once a word is evaluated, every operation gives what stands there already. -/
theorem exec_operation_settle (op : Operation) (s : State) : exec op.instr s.settle = .next s.settle := by
  have hkind : kindOfCode s.settle.out.kind = some (kindOfWord s.fmt s.w) := by rw [settle_kind, kindOfCode_kindCode]
  cases op with
  | significand =>
    rw [Operation.instr, exec_significand, hkind, settle_eq]
    rfl
  | texp =>
    rw [Operation.instr, exec_texp, hkind, settle_eq]
    rfl
  | valueZero => exact valueCase_settle .zero rfl (and_not_nan _ (by decide)).symm
  | valueInfinity => exact valueCase_settle .infinity rfl (and_not_nan _ (by decide)).symm
  | valueNan => exact valueCase_settle .nan rfl (Bool.and_false _).symm
  | valueSubnormal => exact valueCase_settle .subnormal rfl (and_not_nan _ (by decide)).symm
  | valueNormal => exact valueCase_settle .normal rfl (and_not_nan _ (by decide)).symm
  | _ => rfl

/-! ## Settled states -/

theorem drive_settled (s : State) (w : BitVec s.fmt.N) : (s.drive w).Settled := ⟨rfl, rfl⟩

/-- Evaluating the word of a settled state again changes the reply alone. -/
theorem settle_of_settled {s : State} (hs : s.Settled) : s.settle = s.answer := by
  obtain ⟨hout, hview⟩ := hs
  rw [State.settle, State.drive, ← hout, ← hview]
  rfl

/-- Settles O56: but for the reply, which no operation reads, a settled state is the one that evaluating its word leaves. -/
theorem operationsRepeatASettledBlock : Obligations.OperationsRepeatASettledBlock := by
  intro s op hs
  have hexec := exec_operation_settle op s
  rw [settle_of_settled hs] at hexec
  exact (exec_operation_reply op s.answer s.reply).trans hexec

/-- A step from a settled state answers, and with a settled state (R46, R131). -/
theorem step_of_settled {s : State} (hs : s.Settled) : ∃ t, step s = .next t ∧ t.Settled := by
  rcases step_forms s with ⟨w, hstep⟩ | hstep | ⟨op, hstep⟩
  -- a word driven, a text refused, an operation requested
  · exact ⟨_, hstep, drive_settled { s with inputs := s.inputs.tail } w⟩
  · exact ⟨_, hstep, hs⟩
  · exact ⟨_, hstep.trans (operationsRepeatASettledBlock { s with inputs := s.inputs.tail } op hs), hs⟩

/-- Settles O50: the state that `step_of_settled` names is the one the step answers with. -/
theorem everyStepKeepsTheOutputsSettled : Obligations.EveryStepKeepsTheOutputsSettled := by
  intro s t hs hstep
  obtain ⟨t', hstep', hsettled⟩ := step_of_settled hs
  cases hstep.symm.trans hstep'
  exact hsettled

/-- Settles O51. -/
theorem noSettledStateStops : Obligations.NoSettledStateStops := by
  intro s hs
  obtain ⟨t, hstep, -⟩ := step_of_settled hs
  exact ⟨t, hstep⟩

/-- Settles O52, by induction on the number of steps. -/
theorem runsOfEveryLengthAreSafe : Obligations.RunsOfEveryLengthAreSafe := by
  intro n
  induction n with
  | zero => exact fun s hs => hs
  | succ n ih =>
    intro s hs
    obtain ⟨t, hstep, hsettled⟩ := step_of_settled hs
    exact ⟨hs, t, hstep, ih t hsettled⟩

/-- Settles O57: the state taken for reset is settled, so evaluating the word on its port changes nothing. -/
theorem noInputYetDecodesThePositiveZero : Obligations.NoInputYetDecodesThePositiveZero := by
  refine ⟨?_, rfl⟩
  rw [step_of_no_input rfl, settle_of_settled resetIsSettled]
  rfl

/-! ## The operations in the document's order -/

/-- An operation that answers is followed by the rest of the list. -/
theorem runOperations_cons {s t : State} (op : Operation) (rest : List Operation) (h : exec op.instr s = .next t) :
    runOperations (op :: rest) s = runOperations rest t := by
  rw [runOperations, h]

/-- The five cases of the Value Resolver one after another give the value of the kind on the port (R101 to R105). -/
theorem runOperations_valueCases {s : State} {k : Kind} (h : s.out.kind = kindCode k) (rest : List Operation) :
    runOperations (.valueZero :: .valueInfinity :: .valueNan :: .valueSubnormal :: .valueNormal :: rest) s =
      runOperations rest { s with
        out := { s.out with valNeg := s.out.signBit && !decide (k = .nan) }
        view := { s.view with value := valueOf s.fmt k s.out.signBit s.out.exponent s.out.fraction }
        reply := .results } := by
  cases k <;>
    simp [runOperations, Operation.instr, exec, execValueZero, execValueInfinity, execValueNan, execValueSubnormal,
      execValueNormal, valueCase, h, kindOfCode_kindCode, valueOf, State.answer]

/-- The operations up to TEXP one after another write every port but `val_neg`, and the readings of the fields and the kind. -/
theorem runOperations_fieldOperations (s : State) (rest : List Operation) :
    runOperations (.partition :: .classify :: .sign :: .exponent :: .fraction :: .significand :: .texp :: rest) s =
      runOperations rest { s with
        out := { decodeOutputs s.fmt s.w with valNeg := s.out.valNeg }
        view := { decodeView s.fmt s.sep s.w with
          value := s.view.value, strBits := s.view.strBits, summary := s.view.summary }
        reply := .results } := by
  rw [decodeOutputs_eq_outputsOfFields, decodeView_eq_viewOfFields]
  obtain ⟨fmt, sep, w, out, view, reply, inputs⟩ := s
  cases out
  cases view
  simp only [runOperations, Operation.instr, exec_partition, exec_classify, classifiedAs, exec_sign, exec_exponent, exec_fraction,
    exec_significand, exec_texp, kindOfCode_kindCode]
  rfl

/-- Settles O55: the operations up to TEXP write every port but `val_neg`, the five value cases give the value, and the presentation
follows from the readings. -/
theorem operationsInOrderSettleTheBlock : Obligations.OperationsInOrderSettleTheBlock := by
  intro s
  rw [evaluationOrder, runOperations_fieldOperations, runOperations_valueCases (decodeOutputs_kind s.fmt s.w)]
  simp only [runOperations, Operation.instr, exec_strbits, exec_summary]
  rw [decodeOutputs_eq_outputsOfFields, decodeView_eq_viewOfFields]
  rfl

/-! ## Blocks side by side -/

/-- A place with no block answers nothing. -/
theorem stepAt_of_none {sys : System} {i : Nat} (h : sys[i]? = none) : System.stepAt i sys = .next sys := by
  rw [System.stepAt, h]

/-- The block at a place takes its own step (R140). -/
theorem stepAt_of_some {sys : System} {i : Nat} {s t : State} (h : sys[i]? = some s) (hstep : step s = .next t) :
    System.stepAt i sys = .next (sys.set i t) := by
  rw [System.stepAt, h]
  simp only [hstep]

/-- A step of one block leaves every other as it was (R47). -/
theorem stepAt_frame {sys sys' : System} {i j : Nat} (h : System.stepAt i sys = .next sys') (hij : i ≠ j) :
    sys'[j]? = sys[j]? := by
  rcases System.stepAt_next sys sys' i h with ⟨-, rfl⟩ | ⟨s, t, -, -, rfl⟩
  · rfl
  · exact List.getElem?_set_ne hij

/-- Settles O60: by `stepAt_frame` the block at `i` takes the same step before and after the step at `j`, and settings of two places
commute. -/
theorem blocksDoNotInteract : Obligations.BlocksDoNotInteract := by
  refine ⟨fun _ _ _ _ h hij => stepAt_frame h hij, fun sys a b i j hij ha hb => ?_⟩
  have hbi := stepAt_frame hb hij.symm
  have haj := stepAt_frame ha hij
  rcases System.stepAt_next sys a i ha with ⟨hi, rfl⟩ | ⟨s, t, hi, hs, rfl⟩
  · exact ⟨b, hb, stepAt_of_none (hbi.trans hi)⟩
  · refine ⟨b.set i t, ?_, stepAt_of_some (hbi.trans hi) hs⟩
    rcases System.stepAt_next sys b j hb with ⟨hj, rfl⟩ | ⟨s', t', hj, hs', rfl⟩
    · exact stepAt_of_none (haj.trans hj)
    · rw [stepAt_of_some (haj.trans hj) hs', List.set_comm t t' hij]

end Sys2Proof.Proofs.Settling
end

section
/-! Proofs of the number ports' statements: SIGNIFICAND and TEXP on every code (R93, R94, R100), the cases of the Value Resolver (R101 to
R105), and what `sig`, `sig_valid` and `texp` of a word hold (R30, R31, R111). -/

namespace Sys2Proof.Proofs.NumberPorts

open Sys2Proof Sys2Proof.Machine
open Sys2Proof.Proofs.TrueExponent (texpBits_sub_bias texpBits_one_sub_bias)
open Sys2Proof.Proofs.WordClasses (withHiddenBit_false_toNat withHiddenBit_true_toNat subnormalValue_eq_pow normalValue_eq_pow)
open Sys2Proof.Proofs.Resolver (denote_decodeOutputs denote_finite)
open Sys2Proof.Proofs.RoundTrip (kindOfWord_eq_iff)
open Sys2Proof.Proofs.DrivenWord (outputsOfFields decodeOutputs_eq_outputsOfFields decodeView_eq_viewOfFields)
open Sys2Proof.Proofs.Settling (exec_significand exec_texp valueCase_of_kindCode)

/-! ## SIGNIFICAND -/

/-- The bits of `{h, F}`: the fraction's below, the hidden bit above (R93). -/
theorem withHiddenBit_getLsbD (f : FormatSpec) (h : Bool) (F : BitVec f.FW) (j : Nat) :
    (withHiddenBit f h F).getLsbD j = if j < f.FW then F.getLsbD j else h.toNat.testBit (j - f.FW) := by
  rw [BitVec.getLsbD, withHiddenBit_toNat, mul_comm, Nat.testBit_two_pow_mul_add _ F.isLt, BitVec.getLsbD]

/-- The hidden bit stands on the port's top place (R93). -/
theorem withHiddenBit_top (f : FormatSpec) (h : Bool) (F : BitVec f.FW) : (withHiddenBit f h F).getLsbD (f.p - 1) = h := by
  rw [withHiddenBit_getLsbD, if_neg (lt_irrefl _), Nat.sub_self]
  cases h <;> rfl

/-- The significand with the hidden bit `h` (R93). -/
theorem withHiddenBit_div (f : FormatSpec) (h : Bool) (F : BitVec f.FW) :
    ((withHiddenBit f h F).toNat : Rat) / 2 ^ f.FW = (h.toNat : Rat) + (F.toNat : Rat) / 2 ^ f.FW := by
  rw [withHiddenBit_toNat, Nat.cast_add, Nat.cast_mul, Nat.cast_pow, Nat.cast_ofNat, add_div,
    mul_div_cancel_right₀ _ (pow_ne_zero _ two_ne_zero)]

theorem fraction_lt_one (f : FormatSpec) (F : BitVec f.FW) : (F.toNat : Rat) / 2 ^ f.FW < 1 := by
  rw [div_lt_one (by positivity)]
  exact_mod_cast F.isLt

/-- SIGNIFICAND on the code of subnormal or normal, `h` being the hidden bit (R93). -/
theorem exec_significand_of_finite {s : State} {h : Bool} (hkind : s.out.kind = (if h then 2#3 else 1#3)) :
    exec .significand s =
      .next { s with
        out := { s.out with sig := withHiddenBit s.fmt h s.out.fraction, sigValid := true }
        view := { s.view with significand := some ((h.toNat : Rat) + (s.out.fraction.toNat : Rat) / 2 ^ s.fmt.FW) }
        reply := .results } := by
  rw [exec_significand, hkind, ← fractionOf_eq_div]
  cases h with
  | false => simp [kindOfCode, sigPort, sigValidPort, significandOf]
  | true => simp [kindOfCode, sigPort, sigValidPort, significandOf]

/-- Settles O28: `sig` is `{h, F}`, and the bounds are those of the fraction. -/
theorem significandPrependsTheHiddenBit : Obligations.SignificandPrependsTheHiddenBit := by
  intro s h hkind
  have hlt := fraction_lt_one s.fmt s.out.fraction
  refine ⟨_, _, exec_significand_of_finite hkind, withHiddenBit_top .., ?lowBits, rfl, (withHiddenBit_div ..).symm, ?normal,
    ?subnormal⟩
  case lowBits =>
    intro j hj
    rw [withHiddenBit_getLsbD, if_pos hj]
  case normal =>
    rintro rfl
    have hnonneg : 0 ≤ (s.out.fraction.toNat : Rat) / 2 ^ s.fmt.FW := by positivity
    rw [Bool.toNat_true, Nat.cast_one]
    refine ⟨by linarith, by linarith, ?_⟩
    simp
  case subnormal =>
    rintro rfl hF
    have hpos : 0 < (s.out.fraction.toNat : Rat) := by exact_mod_cast Nat.pos_of_ne_zero hF
    rw [Bool.toNat_false, Nat.cast_zero, zero_add]
    exact ⟨by positivity, hlt⟩

/-- A code that is not a kind's own does not name the kind (R28). -/
theorem kindOfCode_ne {c : BitVec 3} {k : Kind} (h : c ≠ kindCode k) : kindOfCode c ≠ some k :=
  fun hc => h ((kindOfCode_eq_some c k).mp hc)

/-- Settles O29: on every other code the three functions of SIGNIFICAND take their last branch. -/
theorem significandIsNotApplicableOutsideFiniteNonzero : Obligations.SignificandIsNotApplicableOutsideFiniteNonzero := by
  intro s h1 h2
  rw [exec_significand]
  have hsub : kindOfCode s.out.kind ≠ some .subnormal := kindOfCode_ne h1
  have hnor : kindOfCode s.out.kind ≠ some .normal := kindOfCode_ne h2
  generalize kindOfCode s.out.kind = k at *
  simp [sigPort, sigValidPort, significandOf, hsub, hnor, Config.invalidSig]

/-- Settles O32: on every other code there is no true exponent. -/
theorem texpIsNotApplicableOutsideFiniteNonzero : Obligations.TexpIsNotApplicableOutsideFiniteNonzero := by
  intro s h1 h2
  have hnone : trueExponentOf s.fmt (kindOfCode s.out.kind) s.out.exponent = none := by
    simp [trueExponentOf, kindOfCode_ne (k := .subnormal) h1, kindOfCode_ne (k := .normal) h2]
  rw [exec_texp, hnone]
  rfl

/-! ## The cases of the Value Resolver -/

/-- The case of the kind on the port gives its value and its sign (R101 to R105). -/
theorem valueCase_selected {s : State} {k : Kind} (h : s.out.kind = kindCode k) (v : Value) (neg : Bool) :
    valueCase k v neg s =
      .next { s with view := { s.view with value := v }, out := { s.out with valNeg := neg }, reply := .results } := by
  rw [valueCase_of_kindCode h, if_pos rfl]
  rfl

/-- Settles O34: each is the selected case. -/
theorem valueOfTheNonfiniteKindsAndZero : Obligations.ValueOfTheNonfiniteKindsAndZero := by
  intro s
  exact ⟨fun h => valueCase_selected (k := .zero) h _ _, fun h => valueCase_selected (k := .infinity) h _ _,
    fun h => valueCase_selected (k := .nan) h _ _⟩

/-- Settles O35: the selected case, the value as R104 writes it. -/
theorem valueSubnormalScalesTheFraction : Obligations.ValueSubnormalScalesTheFraction := by
  intro s h
  rw [neg_sub, ← subnormalValue_eq_pow]
  exact valueCase_selected (k := .subnormal) h _ _

/-- Settles O36: the selected case, the value as R105 writes it. -/
theorem valueNormalScalesTheSignificand : Obligations.ValueNormalScalesTheSignificand := by
  intro s h
  rw [← normalValue_eq_pow]
  exact valueCase_selected (k := .normal) h _ _

/-- A case of another kind than the port's changes the reply alone (log entry 5). -/
theorem valueCase_unselected {s : State} {k : Kind} (hcode : s.out.kind.toNat ≤ 4) (h : s.out.kind ≠ kindCode k) (v : Value)
    (neg : Bool) : valueCase k v neg s = .next { s with reply := .results } := by
  rcases valueCase_cases k v neg s with ⟨hnone, -⟩ | ⟨hk, -⟩ | ⟨-, -, -, hanswer⟩
  · have := (kindOfCode_eq_none s.out.kind).mp hnone
    omega
  · exact absurd hk (kindOfCode_ne h)
  · exact hanswer

/-- Settles O37: each of the five instructions is the case of its kind. -/
theorem unselectedValueCaseChangesNothing : Obligations.UnselectedValueCaseChangesNothing := by
  intro s i k hi h hcode
  simp only [List.mem_cons, List.not_mem_nil, or_false, Prod.mk.injEq] at hi
  rcases hi with ⟨rfl, rfl⟩ | ⟨rfl, rfl⟩ | ⟨rfl, rfl⟩ | ⟨rfl, rfl⟩ | ⟨rfl, rfl⟩ <;> exact valueCase_unselected hcode h _ _

/-! ## The number ports of a word -/

/-- `sig_valid` of a word (R93, R94). -/
theorem sigValid_iff (f : FormatSpec) (w : BitVec f.N) :
    (decodeOutputs f w).sigValid = true ↔ kindOfWord f w = .subnormal ∨ kindOfWord f w = .normal := by
  rw [decodeOutputs_eq_outputsOfFields, outputsOfFields, sigValidPort]
  simp

/-- The number ports of a subnormal word: `sig = {0, F}` at the scale of the least normal exponent (R93, R100). -/
theorem ports_of_subnormal {f : FormatSpec} {w : BitVec f.N} (h : kindOfWord f w = .subnormal) :
    (decodeOutputs f w).sig = withHiddenBit f false (fieldF f w) ∧ (decodeOutputs f w).texp.toInt = 1 - f.bias := by
  rw [decodeOutputs_eq_outputsOfFields, h]
  exact ⟨rfl, texpBits_one_sub_bias f⟩

/-- The number ports of a normal word: `sig = {1, F}` at the scale `E - bias` (R93, R100). -/
theorem ports_of_normal {f : FormatSpec} {w : BitVec f.N} (h : kindOfWord f w = .normal) :
    (decodeOutputs f w).sig = withHiddenBit f true (fieldF f w) ∧
      (decodeOutputs f w).texp.toInt = ((fieldE f w).toNat : Int) - f.bias := by
  rw [decodeOutputs_eq_outputsOfFields, h]
  exact ⟨rfl, texpBits_sub_bias f (fieldE f w).isLt⟩

/-- Settles O30: `sig_valid` and the sentinel follow the kind, and the top bit of `sig` is the hidden bit. -/
theorem sigValidMarksTheFiniteNonzeroWords : Obligations.SigValidMarksTheFiniteNonzeroWords := by
  intro f w
  refine ⟨?flag, fun hvalid => ?hiddenBit, ?sentinel⟩
  case flag =>
    rw [decodeOutputs_eq_outputsOfFields]
    cases hk : kindOfWord f w <;> rfl
  case hiddenBit =>
    rcases (sigValid_iff f w).mp hvalid with hk | hk
    · rw [(ports_of_subnormal hk).1, withHiddenBit_top, decodeOutputs_eq_outputsOfFields, hk]
      rfl
    · rw [(ports_of_normal hk).1, withHiddenBit_top, decodeOutputs_eq_outputsOfFields, hk]
      rfl
  case sentinel =>
    rw [decodeOutputs_eq_outputsOfFields, decodeView_eq_viewOfFields]
    cases hk : kindOfWord f w <;> rfl

/-- Settles O33: the two kinds with a true exponent, by the fields of each. -/
theorem trueExponentStaysInItsRange : Obligations.TrueExponentStaysInItsRange := by
  intro f w hvalid
  rcases (sigValid_iff f w).mp hvalid with hk | hk
  · have htexp := (ports_of_subnormal hk).2
    rw [decodeView_eq_viewOfFields, htexp, hk]
    exact ⟨rfl, le_rfl, fun h => (by cases h), fun _ => rfl⟩
  · have htexp := (ports_of_normal hk).2
    obtain ⟨hlow, hhigh⟩ := (kindOfWord_eq_iff f w .normal).mp hk
    have hhigh' : ((fieldE f w).toNat : Int) + 2 ≤ (2 : Int) ^ f.k := by exact_mod_cast hhigh
    rw [decodeView_eq_viewOfFields, htexp, hk]
    exact ⟨rfl, by omega, fun _ => by omega, fun h => (by cases h)⟩

/-- The value of a word with `sig_valid = 1` in the integer form of its ports (R111). -/
theorem valueOfWord_eq_integer_form {f : FormatSpec} {w : BitVec f.N} (hvalid : (decodeOutputs f w).sigValid = true) :
    valueOfWord f w = .fin ((-1 : Rat) ^ (decodeOutputs f w).valNeg.toNat * ((decodeOutputs f w).sig.toNat : Rat) *
      (2 : Rat) ^ ((decodeOutputs f w).texp.toInt - ((f.p : Int) - 1))) := by
  have hcode : (decodeOutputs f w).kind = 1#3 ∨ (decodeOutputs f w).kind = 2#3 := by
    rw [decodeOutputs_eq_outputsOfFields]
    rcases (sigValid_iff f w).mp hvalid with hk | hk <;> rw [hk]
    · exact .inl rfl
    · exact .inr rfl
  exact Except.ok.inj ((denote_decodeOutputs f w).symm.trans (denote_finite f _ _ _ hcode))

/-- Settles O42: the integer form by `valueOfWord_eq_integer_form`, the ranges of `M` and `Q` from the fields of each kind. -/
theorem finiteValueHasItsIntegerForm : Obligations.FiniteValueHasItsIntegerForm := by
  intro f w o hvalid
  have hports : o.exponent = fieldE f w := rfl
  have hflags : o.isSubnormal = decide (kindOfWord f w = .subnormal) ∧ o.isNormal = decide (kindOfWord f w = .normal) := by
    rw [show o = _ from decodeOutputs_eq_outputsOfFields f w]
    exact ⟨rfl, rfl⟩
  obtain ⟨hsubnormal, hnormal⟩ := hflags
  refine ⟨valueOfWord_eq_integer_form hvalid, ?_⟩
  rw [hports, hsubnormal, hnormal]
  have hmax : o.sig.toNat ≤ 2 ^ f.p - 1 := Nat.le_sub_one_of_lt o.sig.isLt
  rcases (sigValid_iff f w).mp hvalid with hk | hk
  · obtain ⟨hsig, htexp⟩ := ports_of_subnormal hk
    obtain ⟨hE, hF⟩ := (kindOfWord_eq_iff f w .subnormal).mp hk
    have hM : o.sig.toNat = (fieldF f w).toNat := (congrArg BitVec.toNat hsig).trans (withHiddenBit_false_toNat f _)
    rw [htexp, hk]
    rw [hM] at hmax ⊢
    exact ⟨Nat.pos_of_ne_zero hF, hmax, fun _ => (fieldF f w).isLt, fun h => absurd h (by decide), le_rfl, by omega⟩
  · obtain ⟨hsig, htexp⟩ := ports_of_normal hk
    obtain ⟨hlow, -⟩ := (kindOfWord_eq_iff f w .normal).mp hk
    have hM : o.sig.toNat = 2 ^ f.FW + (fieldF f w).toNat := (congrArg BitVec.toNat hsig).trans (withHiddenBit_true_toNat f _)
    have hunit := Nat.two_pow_pos f.FW
    rw [htexp, hk]
    rw [hM] at hmax ⊢
    exact ⟨by omega, hmax, fun h => absurd h (by decide), fun _ => Nat.le_add_right _ _, by omega, by omega⟩

end Sys2Proof.Proofs.NumberPorts
end

section
/-! Proofs of the magnitudes' statements: the magnitude of a finite word grows with the word's number (R111), and its extremes (R104, R105). -/

namespace Sys2Proof.Proofs.Magnitude

open Sys2Proof Sys2Proof.Machine
open Sys2Proof.Proofs.Encoding (fields_sum)
open Sys2Proof.Proofs.Resolver (valueOfWord_eq)
open Sys2Proof.Proofs.RoundTrip (kindOfWord_eq_iff)

/-! ## The magnitude of two fields -/

/-- The magnitude that R104 and R105 give the fields `E` and `F` of a finite word. -/
def magnitude (f : FormatSpec) (E F : Nat) : Rat :=
  if E = 0 then (2 : Rat) ^ (1 - f.bias) * ((F : Rat) / 2 ^ f.FW)
  else (2 : Rat) ^ ((E : Int) - f.bias) * ((2 ^ f.FW + (F : Rat)) / 2 ^ f.FW)

theorem magnitude_of_subnormal (f : FormatSpec) (F : Nat) :
    magnitude f 0 F = (2 : Rat) ^ (1 - f.bias) * ((F : Rat) / 2 ^ f.FW) :=
  if_pos rfl

theorem magnitude_of_normal (f : FormatSpec) {E : Nat} (hE : E ≠ 0) (F : Nat) :
    magnitude f E F = (2 : Rat) ^ ((E : Int) - f.bias) * ((2 ^ f.FW + (F : Rat)) / 2 ^ f.FW) :=
  if_neg hE

theorem magnitude_nonneg (f : FormatSpec) (E F : Nat) : 0 ≤ magnitude f E F := by
  unfold magnitude
  split_ifs <;> positivity

/-- The next fraction has a greater magnitude. -/
theorem magnitude_lt_next_fraction (f : FormatSpec) (E F : Nat) : magnitude f E F < magnitude f E (F + 1) := by
  unfold magnitude
  split_ifs <;> gcongr <;> exact lt_add_one F

/-- The first fraction under an exponent that is not zero stands for a power of two. -/
theorem magnitude_fraction_zero (f : FormatSpec) {E : Nat} (hE : E ≠ 0) : magnitude f E 0 = (2 : Rat) ^ ((E : Int) - f.bias) := by
  rw [magnitude_of_normal f hE, Nat.cast_zero, add_zero, div_self (pow_ne_zero _ two_ne_zero), mul_one]

/-- The last fraction under an exponent has a lesser magnitude than the first under the next exponent. -/
theorem magnitude_lt_next_exponent (f : FormatSpec) (E : Nat) {F : Nat} (hF : F < 2 ^ f.FW) :
    magnitude f E F < magnitude f (E + 1) 0 := by
  have hF' : (F : Rat) < 2 ^ f.FW := by exact_mod_cast hF
  have hunit : (0 : Rat) < 2 ^ f.FW := by positivity
  rw [magnitude_fraction_zero f (Nat.succ_ne_zero E)]
  rcases Nat.eq_zero_or_pos E with rfl | hE
  · have hfraction : (F : Rat) / 2 ^ f.FW < 1 := (div_lt_one hunit).mpr hF'
    rw [magnitude_of_subnormal]
    exact mul_lt_of_lt_one_right (by positivity) hfraction
  · have hsignificand : (2 ^ f.FW + (F : Rat)) / 2 ^ f.FW < 2 := by
      rw [div_lt_iff₀ hunit]
      linarith
    have hscale : (2 : Rat) ^ (((E + 1 : Nat) : Int) - f.bias) = (2 : Rat) ^ ((E : Int) - f.bias) * 2 := by
      rw [← zpow_add_one₀ two_ne_zero]
      congr 1
      omega
    rw [magnitude_of_normal f hE.ne', hscale]
    exact mul_lt_mul_of_pos_left hsignificand (by positivity)

/-- The magnitude grows with the number that the two fields make (R111). -/
theorem magnitude_strictMono (f : FormatSpec) : StrictMono fun u : Nat => magnitude f (u / 2 ^ f.FW) (u % 2 ^ f.FW) := by
  refine strictMono_nat_of_lt_succ fun u => ?_
  have hF := Nat.mod_lt u (Nat.two_pow_pos f.FW)
  have hu := Nat.mod_add_div u (2 ^ f.FW)
  by_cases hlast : u % 2 ^ f.FW + 1 = 2 ^ f.FW
  · obtain ⟨hdiv, hmod⟩ : (u + 1) / 2 ^ f.FW = u / 2 ^ f.FW + 1 ∧ (u + 1) % 2 ^ f.FW = 0 :=
      (Nat.div_mod_unique (Nat.two_pow_pos _)).mpr ⟨by rw [Nat.mul_succ]; omega, Nat.two_pow_pos _⟩
    rw [hdiv, hmod]
    exact magnitude_lt_next_exponent f _ hF
  · obtain ⟨hdiv, hmod⟩ : (u + 1) / 2 ^ f.FW = u / 2 ^ f.FW ∧ (u + 1) % 2 ^ f.FW = u % 2 ^ f.FW + 1 :=
      (Nat.div_mod_unique (Nat.two_pow_pos _)).mpr ⟨by omega, by omega⟩
    rw [hdiv, hmod]
    exact magnitude_lt_next_fraction f _ _

section Fields

variable {f : FormatSpec} {E F E' F' : Nat} (hF : F < 2 ^ f.FW) (hF' : F' < 2 ^ f.FW)
include hF hF'

/-- Of two pairs of fields the one with the lesser number has the lesser magnitude (R111). -/
theorem magnitude_lt_iff : magnitude f E F < magnitude f E' F' ↔ E * 2 ^ f.FW + F < E' * 2 ^ f.FW + F' := by
  have hread : ∀ {E F : Nat}, F < 2 ^ f.FW → (E * 2 ^ f.FW + F) / 2 ^ f.FW = E ∧ (E * 2 ^ f.FW + F) % 2 ^ f.FW = F := fun h =>
    (Nat.div_mod_unique (Nat.two_pow_pos _)).mpr ⟨by ring, h⟩
  have hmono := (magnitude_strictMono f).lt_iff_lt (a := E * 2 ^ f.FW + F) (b := E' * 2 ^ f.FW + F')
  obtain ⟨hE, hmodF⟩ := hread (E := E) hF
  obtain ⟨hE', hmodF'⟩ := hread (E := E') hF'
  simpa only [hE, hmodF, hE', hmodF'] using hmono

theorem magnitude_le_iff : magnitude f E F ≤ magnitude f E' F' ↔ E * 2 ^ f.FW + F ≤ E' * 2 ^ f.FW + F' := by
  rw [← not_lt, magnitude_lt_iff hF' hF, not_lt]

/-- Different fields have different magnitudes. -/
theorem magnitude_inj : magnitude f E F = magnitude f E' F' ↔ E = E' ∧ F = F' := by
  rw [← fields_unique f hF hF', le_antisymm_iff, magnitude_le_iff hF hF', magnitude_le_iff hF' hF, ← le_antisymm_iff]

end Fields

/-- Fields that are not both zero have a positive magnitude. -/
theorem magnitude_pos {f : FormatSpec} {E F : Nat} (hF : F < 2 ^ f.FW) (h : 0 < E * 2 ^ f.FW + F) : 0 < magnitude f E F := by
  have hzero : magnitude f 0 0 = 0 := by rw [magnitude_of_subnormal, Nat.cast_zero, zero_div, mul_zero]
  rw [← hzero, magnitude_lt_iff (Nat.two_pow_pos _) hF, Nat.zero_mul]
  exact h

/-! ## The value of a word by its magnitude -/

/-- A finite value that is not zero is the magnitude of the word's fields with its sign (R104, R105). -/
theorem valueOfWord_of_finite {f : FormatSpec} {w : BitVec f.N} (h : kindOfWord f w = .subnormal ∨ kindOfWord f w = .normal) :
    valueOfWord f w = .fin (signed (fieldS f w) (magnitude f (fieldE f w).toNat (fieldF f w).toNat)) := by
  rw [valueOfWord_eq]
  rcases h with hk | hk
  · obtain ⟨hE, -⟩ := (kindOfWord_eq_iff f w .subnormal).mp hk
    rw [hk, hE, magnitude_of_subnormal]
    exact subnormalValue_eq ..
  · obtain ⟨hE, -⟩ := (kindOfWord_eq_iff f w .normal).mp hk
    rw [hk, magnitude_of_normal f (by omega)]
    exact normalValue_eq ..

/-- The number of a positive word is that of its other two fields. -/
theorem toNat_of_positive {f : FormatSpec} {w : BitVec f.N} (hS : fieldS f w = false) :
    w.toNat = (fieldE f w).toNat * 2 ^ f.FW + (fieldF f w).toNat := by
  rw [← fields_sum f w, hS, Bool.toNat_false, Nat.zero_mul, Nat.zero_add, fractionUnit]

/-- A positive word that is no NaN is `+0`, a finite number or `+infinity`, in the order of the words' numbers (R111). -/
theorem positive_cases {f : FormatSpec} {w : BitVec f.N} (hS : fieldS f w = false) (hnan : kindOfWord f w ≠ .nan) :
    (w.toNat = 0 ∧ valueOfWord f w = .zero false) ∨
    (0 < w.toNat ∧ w.toNat < exponentMask f ∧
      valueOfWord f w = .fin (magnitude f (fieldE f w).toNat (fieldF f w).toNat)) ∨
    (w.toNat = exponentMask f ∧ valueOfWord f w = .inf false) := by
  have hfields := (kindOfWord_eq_iff f w _).mp rfl
  have hk := two_le_two_pow_k f
  have hF := (fieldF f w).isLt
  have hunit := Nat.two_pow_pos f.FW
  rw [toNat_of_positive hS, exponentMask, fractionUnit]
  cases hkind : kindOfWord f w <;> rw [hkind] at hfields
  case nan => exact absurd hkind hnan
  case zero =>
    obtain ⟨hE, hF⟩ := hfields
    exact .inl ⟨by rw [hE, hF, Nat.zero_mul], by rw [valueOfWord_eq, hkind, hS, valueOf]⟩
  case infinity =>
    obtain ⟨hE, hF⟩ := hfields
    exact .inr (.inr ⟨by rw [hE, hF, Nat.add_zero], by rw [valueOfWord_eq, hkind, hS, valueOf]⟩)
  case subnormal =>
    obtain ⟨hE, hF0⟩ := hfields
    have hvalue := valueOfWord_of_finite (.inl hkind)
    rw [hS] at hvalue
    refine .inr (.inl ⟨by omega, ?_, hvalue⟩)
    rw [hE, Nat.zero_mul, Nat.zero_add]
    exact hF.trans_le (Nat.le_mul_of_pos_left _ (by omega))
  case normal =>
    obtain ⟨hlow, hhigh⟩ := hfields
    have hvalue := valueOfWord_of_finite (.inr hkind)
    rw [hS] at hvalue
    have hpos := Nat.mul_pos hlow hunit
    have hnext : ((fieldE f w).toNat + 1) * 2 ^ f.FW ≤ (2 ^ f.k - 1) * 2 ^ f.FW := Nat.mul_le_mul_right _ (by omega)
    rw [Nat.succ_mul] at hnext
    exact .inr (.inl ⟨by omega, by omega, hvalue⟩)

/-- Settles O43: both words are `+0`, a finite number or `+infinity`, and of two finite ones the magnitudes are in the order of the
numbers. -/
theorem magnitudeIsMonotonicInTheWord : Obligations.MagnitudeIsMonotonicInTheWord := by
  intro f w1 w2 hS1 hS2 hnan1 hnan2 hlt
  have hF1 := (fieldF f w1).isLt
  have hF2 := (fieldF f w2).isLt
  rcases positive_cases hS1 hnan1 with ⟨h1, hv1⟩ | ⟨-, h1, hv1⟩ | ⟨h1, hv1⟩
  · rcases positive_cases hS2 hnan2 with ⟨h2, -⟩ | ⟨h2, -, hv2⟩ | ⟨-, hv2⟩
    · omega
    · rw [hv1, hv2]
      exact magnitude_pos hF2 (toNat_of_positive hS2 ▸ h2)
    · rw [hv1, hv2]
      trivial
  · rcases positive_cases hS2 hnan2 with ⟨h2, -⟩ | ⟨-, -, hv2⟩ | ⟨-, hv2⟩
    · omega
    · rw [hv1, hv2]
      rw [toNat_of_positive hS1, toNat_of_positive hS2] at hlt
      exact (magnitude_lt_iff hF1 hF2).mpr hlt
    · rw [hv1, hv2]
      trivial
  · rcases positive_cases hS2 hnan2 with ⟨h2, -⟩ | ⟨-, h2, -⟩ | ⟨h2, -⟩ <;> omega

/-! ## The extremes -/

/-- The size of a finite value that is not zero. -/
theorem abs_signed (S : Bool) {q : Rat} (hq : 0 ≤ q) : |signed S q| = q := by
  cases S with
  | false => exact abs_of_nonneg hq
  | true => exact (abs_neg q).trans (abs_of_nonneg hq)

theorem magnitude_least_subnormal (f : FormatSpec) : magnitude f 0 1 = (2 : Rat) ^ (1 - f.bias - ((f.p : Int) - 1)) := by
  rw [magnitude_of_subnormal, p_sub_one, zpow_sub₀ two_ne_zero (1 - f.bias), zpow_natCast, Nat.cast_one, mul_one_div]

/-- The fraction of `p - 1` ones. -/
theorem ones_div (f : FormatSpec) : ((2 ^ f.FW - 1 : Nat) : Rat) / 2 ^ f.FW = 1 - (2 : Rat) ^ (-((f.p : Int) - 1)) := by
  rw [p_sub_one, zpow_neg, zpow_natCast, Nat.cast_sub Nat.one_le_two_pow, sub_div]
  simp

theorem magnitude_greatest_subnormal (f : FormatSpec) :
    magnitude f 0 (2 ^ f.FW - 1) = (2 : Rat) ^ (1 - f.bias) * (1 - (2 : Rat) ^ (-((f.p : Int) - 1))) := by
  rw [magnitude_of_subnormal, ones_div]

theorem magnitude_greatest_normal (f : FormatSpec) (hk : 2 ^ f.k - 2 ≠ 0) :
    magnitude f (2 ^ f.k - 2) (2 ^ f.FW - 1) =
      (2 : Rat) ^ ((2 : Int) ^ f.k - 2 - f.bias) * (2 - (2 : Rat) ^ (-((f.p : Int) - 1))) := by
  rw [magnitude_of_normal f hk, add_div, ones_div, div_self (pow_ne_zero _ two_ne_zero), Nat.cast_sub (two_le_two_pow_k f)]
  push_cast
  ring

/-- Settles O44: the magnitudes are ordered as the fields are, and each extreme is the magnitude of the fields named. -/
theorem finiteMagnitudesStayBetweenTheirExtremes : Obligations.FiniteMagnitudesStayBetweenTheirExtremes := by
  intro f w q hq
  have hF := (fieldF f w).isLt
  have hlast : 2 ^ f.FW - 1 < 2 ^ f.FW := Nat.sub_lt (Nat.two_pow_pos _) one_pos
  have hone : 1 < 2 ^ f.FW := Nat.one_lt_two_pow (by have := f.p_two; simp only [FormatSpec.FW]; omega)
  have habs : kindOfWord f w = .subnormal ∨ kindOfWord f w = .normal →
      |q| = magnitude f (fieldE f w).toNat (fieldF f w).toNat := fun h => by
    cases hq.symm.trans (valueOfWord_of_finite h)
    exact abs_signed _ (magnitude_nonneg ..)
  constructor
  · intro hk
    obtain ⟨hE, hF0⟩ := (kindOfWord_eq_iff f w .subnormal).mp hk
    rw [habs (.inl hk), ← magnitude_least_subnormal, ← magnitude_greatest_subnormal, magnitude_le_iff hone hF,
      magnitude_le_iff hF hlast, magnitude_inj hF hone, magnitude_inj hF hlast, hE]
    simp only [true_and, Nat.zero_mul, Nat.zero_add]
    exact ⟨Nat.pos_of_ne_zero hF0, Nat.le_sub_one_of_lt hF, trivial⟩
  · intro hk
    obtain ⟨hlow, hhigh⟩ := (kindOfWord_eq_iff f w .normal).mp hk
    have hleast : magnitude f 1 0 = (2 : Rat) ^ (1 - f.bias) := magnitude_fraction_zero f one_ne_zero
    rw [habs (.inr hk), ← hleast, ← magnitude_greatest_normal f (by omega), magnitude_le_iff (Nat.two_pow_pos _) hF,
      magnitude_le_iff hF hlast, magnitude_inj hF (Nat.two_pow_pos _), magnitude_inj hF hlast]
    exact ⟨Nat.add_le_add (Nat.mul_le_mul_right _ hlow) (Nat.zero_le _),
      Nat.add_le_add (Nat.mul_le_mul_right _ (by omega)) (Nat.le_sub_one_of_lt hF), Iff.rfl, Iff.rfl⟩

end Sys2Proof.Proofs.Magnitude
end

section
/-! Proofs of the words' statements: how many words of each kind a format has (R80 to R84, R86), that every word is `Load` of one text (R73),
and the words of the test vectors (R57). -/

namespace Sys2Proof.Proofs.AllWords

open Sys2Proof Sys2Proof.Machine
open Sys2Proof.Laws.WordFits (fields_lt)
open Sys2Proof.Proofs.Encoding (fields_sum)
open Sys2Proof.Proofs.Presentation (digits_length digits_getElem? eq_digits_of_loadText)
open Sys2Proof.Proofs.WordClasses (toNat_ofNat_of_fits)
open Sys2Proof.Proofs.RoundTrip (fieldsNumber fieldsNumber_inj fields_of_toNat FieldsOfKind kindOfWord_eq_iff)

/-! ## Counting words by their fields -/

section Counting

variable {f : FormatSpec} {P : BitVec f.N → Bool} {A B : Finset Nat} (hA : A ⊆ Finset.range (2 ^ f.k))
  (hB : B ⊆ Finset.range (2 ^ f.FW)) (hP : ∀ w, P w = true ↔ (fieldE f w).toNat ∈ A ∧ (fieldF f w).toNat ∈ B)
include hA hB

/-- Different fields make different numbers (R50). -/
theorem fieldsNumber_injOn :
    Set.InjOn (fun x : Bool × Nat × Nat => fieldsNumber f x.1 x.2.1 x.2.2) ((Finset.univ : Finset Bool) ×ˢ A ×ˢ B : Finset _) := by
  rintro ⟨S, E, F⟩ hx ⟨S', E', F'⟩ hx' h
  simp only [Finset.coe_product, Set.mem_prod, Finset.mem_coe, Finset.mem_univ, true_and] at hx hx'
  obtain ⟨rfl, rfl, rfl⟩ := fieldsNumber_inj (Finset.mem_range.mp (hA hx.1)) (Finset.mem_range.mp (hA hx'.1))
    (Finset.mem_range.mp (hB hx.2)) (Finset.mem_range.mp (hB hx'.2)) h
  rfl

include hP

/-- The numbers of the words with these fields. -/
theorem filter_fields_eq_image :
    ((Finset.range (2 ^ f.N)).filter fun u => P (BitVec.ofNat f.N u) = true) =
      ((Finset.univ : Finset Bool) ×ˢ A ×ˢ B).image fun x => fieldsNumber f x.1 x.2.1 x.2.2 := by
  ext u
  simp only [Finset.mem_filter, Finset.mem_range, Finset.mem_image, Finset.mem_product, Finset.mem_univ, true_and, Prod.exists, hP]
  constructor
  · rintro ⟨hu, hfields⟩
    exact ⟨_, _, _, hfields, (fields_sum f _).trans (toNat_ofNat_of_fits hu)⟩
  · rintro ⟨S, E, F, ⟨hE, hF⟩, rfl⟩
    have hE' := Finset.mem_range.mp (hA hE)
    have hF' := Finset.mem_range.mp (hB hF)
    have hlt : fieldsNumber f S E F < 2 ^ f.N := fields_lt f S hE' hF'
    obtain ⟨-, hfieldE, hfieldF⟩ := fields_of_toNat hE' hF' (toNat_ofNat_of_fits hlt)
    rw [hfieldE, hfieldF]
    exact ⟨hlt, hE, hF⟩

/-- A format has one word for each sign, exponent field and fraction field: two for each pair of the other two (R50). -/
theorem countP_fields : ((List.range (2 ^ f.N)).countP fun u => P (BitVec.ofNat f.N u)) = 2 * A.card * B.card := by
  calc ((List.range (2 ^ f.N)).countP fun u => P (BitVec.ofNat f.N u))
      = Nat.count (fun u => P (BitVec.ofNat f.N u) = true) (2 ^ f.N) := by simp [Nat.count]
    _ = ((Finset.univ : Finset Bool) ×ˢ A ×ˢ B).card := by
      rw [Nat.count_eq_card_filter_range, filter_fields_eq_image hA hB hP, Finset.card_image_of_injOn (fieldsNumber_injOn hA hB)]
    _ = 2 * A.card * B.card := by
      rw [Finset.card_product, Finset.card_product, Finset.card_univ, Fintype.card_bool, mul_assoc]

end Counting

/-- The words of a kind whose condition lets the exponent field be in `A` and the fraction field in `B` (R80 to R84). -/
theorem kindCount_eq {f : FormatSpec} {k : Kind} {A B : Finset Nat} (hA : A ⊆ Finset.range (2 ^ f.k))
    (hB : B ⊆ Finset.range (2 ^ f.FW))
    (hk : ∀ E F, E < 2 ^ f.k → F < 2 ^ f.FW → (FieldsOfKind f E F k ↔ E ∈ A ∧ F ∈ B)) :
    kindCount f k = 2 * A.card * B.card := by
  refine countP_fields (P := fun w => kindOfWord f w == k) hA hB fun w => ?_
  rw [beq_iff_eq, kindOfWord_eq_iff, hk _ _ (fieldE f w).isLt (fieldF f w).isLt]

/-- Settles O17: each kind's exponent and fraction fields are those of an interval or a single number. -/
theorem wordsOfEachKindAreCounted : Obligations.WordsOfEachKindAreCounted := by
  intro f
  have hk := two_le_two_pow_k f
  have hunit := Nat.two_pow_pos f.FW
  have hnonzero : Finset.Ico 1 (2 ^ f.FW) ⊆ Finset.range (2 ^ f.FW) := fun x hx => by simp at hx ⊢; omega
  have hzero : {0} ⊆ Finset.range (2 ^ f.FW) := by simp
  have hones : {2 ^ f.k - 1} ⊆ Finset.range (2 ^ f.k) := by simp
  have hzeros : {0} ⊆ Finset.range (2 ^ f.k) := by simp
  have hbetween : Finset.Ico 1 (2 ^ f.k - 1) ⊆ Finset.range (2 ^ f.k) := fun x hx => by simp at hx ⊢; omega
  refine ⟨?nan, ?infinity, ?subnormal, ?zero, ?normal⟩
  case nan =>
    rw [kindCount_eq hones hnonzero fun E F hE hF => by simp [FieldsOfKind]; omega]
    simp
  case infinity =>
    rw [kindCount_eq hones hzero fun E F hE hF => by simp [FieldsOfKind]]
    simp
  case subnormal =>
    rw [kindCount_eq hzeros hnonzero fun E F hE hF => by simp [FieldsOfKind]; omega]
    simp
  case zero =>
    rw [kindCount_eq hzeros hzero fun E F hE hF => by simp [FieldsOfKind]]
    simp
  case normal =>
    rw [kindCount_eq hbetween subset_rfl fun E F hE hF => by simp [FieldsOfKind]; omega]
    simp [Nat.sub_sub]

/-! ## Every word is Load of one text -/

/-- Different words have different digits. -/
theorem digits_inj {n : Nat} {v w : BitVec n} (h : digits v = digits w) : v = w := by
  apply BitVec.eq_of_getMsbD_eq
  intro i hi
  have hdigit := congrArg (·[i]?) h
  simp only [digits_getElem? _ hi, Option.some.injEq] at hdigit
  rw [BitVec.getMsbD, BitVec.getMsbD, decide_eq_true hi]
  revert hdigit
  cases v.getLsbD (n - 1 - i) <;> cases w.getLsbD (n - 1 - i) <;> decide

/-- The digits of a word are an accepted text (R55). -/
theorem accepted_digits (f : FormatSpec) (w : BitVec f.N) : Accepted f (digits w) := by
  refine ⟨digits_length w, fun c hc => ?_⟩
  obtain ⟨i, -, rfl⟩ := List.mem_map.mp hc
  cases w.getLsbD (f.N - 1 - i) with
  | false => exact .inl rfl
  | true => exact .inr rfl

/-- Settles O8: the text is the word's digits, for an accepted text is the digits of its word. -/
theorem everyWordIsLoadOfExactlyOneText : Obligations.EveryWordIsLoadOfExactlyOneText := by
  intro f w
  obtain ⟨w', hload⟩ := (accepted_iff_loadText f (digits w)).mp (accepted_digits f w)
  obtain rfl : w = w' := digits_inj (eq_digits_of_loadText hload)
  exact ⟨digits w, hload, fun t ht => eq_digits_of_loadText ht⟩

/-! ## The test vectors -/

/-- Settles O2: each row is computed. -/
theorem vectorWordsDecode : Obligations.VectorWordsDecode := by
  unfold Obligations.VectorWordsDecode
  decide

end Sys2Proof.Proofs.AllWords
end
